-- ==== Sys2Proof/Word.lean ====
section
/-! DEFINITION. The words of the block and its small closed alphabets: bytes, pin identifiers, times, command words,
symbol codes; levels, symbols, the mode, the micro-phases. Spec: 00_scope.md R8 to R10, 10_state.md R20. -/

namespace Sys2Proof

/-- A payload byte (R8). -/
abbrev Byte := BitVec 8

/-- A pin identifier, `W_PIN` = 16 bits (R7, R21; decision D10). An opaque name: no arithmetic is ever done on it. -/
abbrev PinId := BitVec 16

/-- A clock value or `LTT`, `W_TIME` = 32 bits, in microseconds (R7, R9; decision D1). -/
abbrev Time := BitVec 32

/-- The command word `CW`, 18 bits (R81). -/
abbrev CmdWord := BitVec 18

/-- The one-bit symbol code (R83). -/
abbrev SymCode := BitVec 1

/-- The two output levels of a pin (R14). -/
inductive Level where
  | low
  | high
deriving DecidableEq, Repr

/-- The symbol alphabet of the Bit Transmitter (R14, R83). -/
inductive Symbol where
  | zero
  | one
deriving DecidableEq, Repr

/-- `MODE` (R23). -/
inductive Mode where
  | idle
  | busy
deriving DecidableEq, Repr

/-- `PH`, the micro-phase inside the current symbol (R20, R24, R114). -/
inductive Phase where
  | waitA
  | writeA
  | stampA
  | waitB
  | writeB
  | stampB
deriving DecidableEq, Repr

/-- Where the payload of the running frame comes from: the host's buffer (TRANSMIT_FRAME) or the block's own two-byte
split of an operand (TRANSMIT_U16, R148). Only the first kind is exposed to host writes (R214). -/
inductive PayloadSource where
  | hostBuffer
  | operand
deriving DecidableEq, Repr

end Sys2Proof
end

