-- ==== Sys2Proof/Config.lean ====
section
/-! DEFINITION. The block's parameters (00_scope.md R7) and the free values: what the spec leaves open is an `opaque`
constant with no body, so no proof can depend on what it is. -/

namespace Sys2Proof.Config

/-- `HBI`, the Half-Bit Interval in microseconds (R7). -/
def hbi : Time := 1000#32

/-- `START_BIAS`, microseconds between the frame-start clock read and the earliest first transition (R7, R141). -/
def startBias : Time := 10#32

/-- `PREAMBLE_ZEROS` (R7, R142). -/
def preambleZeros : Nat := 14

/-- `START_ONES` (R7, R143). -/
def startOnes : Nat := 1

/-- `TERM_ZEROS` (R7, R145). -/
def termZeros : Nat := 2

/-- `BITS_PER_BYTE` (R7, R144). -/
def bitsPerByte : Nat := 8

/-- `LEN_MAX`, the largest payload length the command port can express (R7; decision D14). -/
def lenMax : Nat := 65535

/-- `DEFAULT_PIN`: the spec says it exists and gives no value (R7, R30; decision D9). An open parameter. Log entry 1. -/
opaque defaultPin : PinId

/-- The true time at power-on: "a natural number of microseconds from an arbitrary origin" (R60). Log entry 4. -/
opaque startTime : Nat

/-- How many microseconds the clock environment lets pass after step number `n`, where the state's list of inputs has
run out: "the environment may add any natural number to T" (R60, R114). Log entry 5. -/
opaque clockAdvance : Nat → Nat

/-- The byte at index `i` of the buffer of the command accepted at step `n`, where the host wrote none there (R13: the
buffer's content is an input of the command). Log entry 6. -/
opaque unsetPayload : Nat → Nat → Byte

/-- Whether a byte the host changes at step `n`, while a frame is being sent, goes out with its new value (R59, R214:
a race, either value). Log entry 7. -/
opaque raceTakesNew : Nat → Bool

end Sys2Proof.Config
end

