-- ==== Sys2Proof/Syntax.lean ====
section
/-! DEFINITION. The instructions: one constructor per row of spec/opcode_table.json. -/

namespace Sys2Proof

/-- The operations of the block: three host commands, the reserved command code, and the Bit Transmitter's two internal
micro-operations, which the Frame Transmitter issues and the host cannot (R82, R83, R91). -/
inductive Instr where
  /-- SET_TRANSMIT_PIN `pin_id` (R170). -/
  | setTransmitPin (pin : PinId)
  /-- TRANSMIT_U16 `value` (R148). -/
  | transmitU16 (value : BitVec 16)
  /-- TRANSMIT_FRAME with `length` payload bytes (R140). The rule is stated for every natural length; the command port
  can express lengths up to `LEN_MAX` (WellFormed). -/
  | transmitFrame (length : Nat)
  /-- The reserved command code `op = 0b11`; its argument bits are ignored (R89, R173). -/
  | reservedCmd3 (arg : BitVec 16)
  /-- SEND_SYMBOL ZERO (R112). -/
  | sendSymbolZero
  /-- SEND_SYMBOL ONE (R113). -/
  | sendSymbolOne
deriving DecidableEq, Repr

end Sys2Proof
end

