-- ==== Sys2Proof/Machine/State.lean ====
section
/-! DEFINITION. The state of the block, of the pin sink, of the clock environment and of the host's command port, all plain
data; the ways a step can stop; the state after power-on. Spec: 10_state.md R20 to R33, 00_scope.md R11, R12. -/

namespace Sys2Proof.Machine

/-- The events of the trace (R12). Each stands in the trace with the true time at which it happened. -/
inductive Event where
  /-- `PinMode(p, OUTPUT)` (R61, R170). -/
  | pinMode (pin : PinId)
  /-- `PinWrite(p, lv)` (R61, R114). -/
  | pinWrite (pin : PinId) (level : Level)
  /-- `ClockRead(c)` (R111, R114, R141). -/
  | clockRead (value : Time)
  /-- `Accept`: TRANSMIT_FRAME with this payload was accepted (R141); TRANSMIT_U16 is the same event with its two-byte
  payload (R148; log entry 8). -/
  | accept (payload : List Byte)
  /-- `Done` (R146). -/
  | done
deriving DecidableEq, Repr

/-- The timed event trace, oldest event first (R12). -/
abbrev Trace := List (Nat × Event)

/-- The payload space as the host has filled it: byte index and byte, in the canonical form `Memory.wf` (R50, R51). -/
abbrev Memory := List Host.Cell

/-- One command of the host's list (R15): the word it presents and the buffer that goes with TRANSMIT_FRAME (R50, R81). -/
structure Command where
  word : CmdWord
  buffer : List Byte
deriving DecidableEq, Repr

/-- What the outside world does at one step of the machine. -/
structure Input where
  /-- How many microseconds the clock environment lets pass after this step (R11, R60). -/
  advance : Nat
  /-- Whether the reset input is asserted (R210). -/
  reset : Bool
  /-- A byte of its buffer that the host changes, whatever the block is doing: its index and new value (R59, R214). -/
  store : Option (Nat × Byte)
deriving DecidableEq, Repr

/-- The block has no exception and no error condition: "The block raises no synchronous exception" (R180), so no step
ever faults and the type has no constructor. -/
inductive Fault where
deriving DecidableEq, Repr

/-- Why a step gives no next state. Every one is safe: the run stops, and nothing is claimed of what would follow. -/
inductive Refusal where
  /-- Raised by an arm of exec that has no meaning yet. Safe. -/
  | notModelled (mnemonic : String)
  /-- Raised by execReservedCmd3: the command word has `op = 0b11` (R89 (a), R173: "A model refuses it"). Safe. -/
  | reservedCommand
  /-- Raised by the three commands and nothing else: a command reached the block while `MODE = BUSY`, where the command
  port has no step (R23; 93_implementation_defined.md U5). `step` never presents one there. Safe. -/
  | commandWhileBusy
  /-- Raised by the two SEND_SYMBOL operations: `MODE = IDLE`, where the block has no step (R147) and the host cannot
  send a bare symbol (R174). `step` never issues one there. Safe. -/
  | symbolWhileIdle
  /-- Raised by step: `MODE = BUSY` with a position `K` past the frame's last symbol, which no run reaches (R24) and
  where R86 names no symbol. Safe. -/
  | positionPastFrame
deriving DecidableEq, Repr

/-- The whole state. -/
structure State where
  /-- `PIN` (R21). -/
  pin : PinId
  /-- `LTT`, the time of the last transition (R22). -/
  ltt : Time
  /-- `MODE` (R23); the output flag `BUSY` is `State.busyFlag`. -/
  mode : Mode
  /-- `K`, the index of the symbol being sent (R24). -/
  k : Nat
  /-- `PH`, the next micro-step (R24). -/
  ph : Phase
  /-- `NLEN`, the payload byte count of the running frame (R25). -/
  nlen : Nat
  /-- `PBUF`, the payload of the running frame (R25). -/
  pbuf : List Byte
  /-- Where `PBUF` came from. The model's own field: it says whether a host write can race with it (R214). -/
  psrc : PayloadSource
  /-- `LEVEL[p]`, keyed by pin number; a pin not listed is `unwritten` (R26). The pin sink's state. -/
  level : List (Nat × Level)
  /-- The payload space: the host's buffer on the command port, keyed by byte index (R50, R51). -/
  payload : Memory
  /-- The true time `T` in microseconds (R14, R60). The clock environment's state. -/
  time : Nat
  /-- The timed event trace the pin sink and the clock record (R12). -/
  trace : Trace
  /-- The commands the host has still to present, each when the block is IDLE (R15, R190). -/
  commands : List Command
  /-- What the outside world does at the coming steps, the next first; past its end nothing is asserted or stored and
  the time that passes is a free value. The model's own field. -/
  inputs : List Input
  /-- How many steps the machine has taken: the index of the free values. The model's own field. -/
  steps : Nat
deriving DecidableEq, Repr

/-- The machine right after power-on (R30 to R33, R210): `PIN = DEFAULT_PIN`, IDLE, every pin unwritten, no event, and
`LTT`, `K`, `PH`, `NLEN`, `PBUF` are unspecified and never read before they are written; the model holds zero there
(DESIGN CHOICE, log entry 2). The host has presented nothing. -/
def State.reset : State where
  pin := Config.defaultPin
  ltt := 0
  mode := .idle
  k := 0
  ph := .waitA
  nlen := 0
  pbuf := []
  psrc := .operand
  level := []
  payload := []
  time := Config.startTime
  trace := []
  commands := []
  inputs := []
  steps := 0

end Sys2Proof.Machine
end

