-- ==== Sys2Proof/Machine/Flags.lean ====
section
/-! DEFINITION. The block's flag computations: the time arithmetic, the bit-transition timer's comparator, and the one
status output `BUSY`. Spec: 00_scope.md R9, 10_state.md R23, 40_bit_transmitter.md R111, 60_exceptions.md R188. -/

namespace Sys2Proof.Machine

/-- `tadd`: time addition modulo `2^W_TIME` (R9). -/
def tadd (a b : Time) : Time := a + b

/-- `tsub`: the unsigned time difference modulo `2^W_TIME` (R9). -/
def tsub (a b : Time) : Time := a - b

/-- The comparator of the bit-transition timer: `tsub(now, ref) >= HBI`, unsigned (R111, R188). -/
def waitOver (now ref : Time) : Bool := decide (Config.hbi.toNat ≤ (tsub now ref).toNat)

/-- The phase reference a frame starts with: `tsub(tadd(now, START_BIAS), HBI)` (R141). -/
def frameStartRef (now : Time) : Time := tsub (tadd now Config.startBias) Config.hbi

/-- The output flag `BUSY`: 1 exactly when `MODE = BUSY` (R23). -/
def State.busyFlag (s : State) : BitVec 1 :=
  match s.mode with
  | .idle => 0#1
  | .busy => 1#1

end Sys2Proof.Machine
end

