-- ==== Sys2Proof/Machine/Operands.lean ====
section
/-! DEFINITION. Operand assembly and the two line encodings: the symbol a data bit selects, the Manchester line code, the
payload marshaller, the frame as a function, the 16-bit split. Spec: 30_encoding.md R83 to R88. -/

namespace Sys2Proof.Machine

/-- `sel`: the symbol a data bit selects, ZERO for 0 and ONE for 1 (R83, R86). -/
def selSymbol (b : Bool) : Symbol := if b then .one else .zero

/-- The one-bit code of a symbol (R83). -/
def symbolCode : Symbol → SymCode
  | .zero => 0#1
  | .one => 1#1

/-- `first(s)`: the level of a symbol's first half (R84). -/
def firstLevel : Symbol → Level
  | .zero => .high
  | .one => .low

/-- `second(s)`: the level of a symbol's second half (R84). -/
def secondLevel : Symbol → Level
  | .zero => .low
  | .one => .high

/-- A level on a one-bit port: HIGH is 1, LOW is 0 (R14, R84; decision D13). -/
def levelBit : Level → BitVec 1
  | .low => 0#1
  | .high => 1#1

/-- The symbols before the payload: preamble and start marker (R85). -/
def headSymbols : Nat := Config.preambleZeros + Config.startOnes

/-- `S = 17 + 8*N`, the number of symbols of a frame with `n` payload bytes (R85). -/
def symbolCount (n : Nat) : Nat := headSymbols + Config.bitsPerByte * n + Config.termZeros

/-- Payload symbol number `j`: bit `j mod 8` of byte `j div 8`, least significant bit first (R87, R144). -/
def payloadSymbol (p : List Byte) (j : Nat) : Option Symbol :=
  (p[j / Config.bitsPerByte]?).map fun b => selSymbol (b.getLsbD (j % Config.bitsPerByte))

/-- `sym(P, k)`: the symbol of the frame for payload `P` at index `k`, none outside the frame (R86). -/
def frameSymbol (p : List Byte) (k : Nat) : Option Symbol :=
  if k < Config.preambleZeros then some .zero
  else if k < headSymbols then some .one
  else if k < headSymbols + Config.bitsPerByte * p.length then payloadSymbol p (k - headSymbols)
  else if k < symbolCount p.length then some .zero
  else none

/-- `frame_symbols(P)` (R86). -/
def frameSymbols (p : List Byte) : List Symbol :=
  (List.range (symbolCount p.length)).filterMap (frameSymbol p)

/-- `frame_levels(P)`: the levels of the frame's pin writes, in order (R86). -/
def frameLevels (p : List Byte) : List Level :=
  (frameSymbols p).flatMap fun s => [firstLevel s, secondLevel s]

/-- The payload of TRANSMIT_U16: high byte, then low byte (R52, R88, R148). -/
def splitU16 (value : BitVec 16) : List Byte := [value.extractLsb' 8 8, value.extractLsb' 0 8]

end Sys2Proof.Machine
end

