-- ==== Sys2Proof/Machine/Ops.lean ====
section
/-! DEFINITION. The named operations over the spaces and registers: sorted cell lists (the payload space and the pin
levels), the clock, the pin, the trace; a frame's entry and exit; reset. The block has no exception (60_exceptions.md
R180, R185): "The block's only entry and exit are command acceptance and completion". -/

namespace Sys2Proof.Machine

/-! ### Sorted cell lists -/

/-- The canonical form of a cell list: addresses strictly rising. An unlisted address has no value, so no entry can
equal what an unlisted address reads as. -/
abbrev cellsWf {α : Type} (cells : List (Nat × α)) : Prop := cells.Pairwise fun c d => c.1 < d.1

/-- The value listed at an address, if any. -/
def readCell {α : Type} : List (Nat × α) → Nat → Option α
  | [], _ => none
  | (b, w) :: rest, a => if a = b then some w else readCell rest a

/-- The list with the value at an address replaced or inserted in its place. -/
def writeCell {α : Type} : List (Nat × α) → Nat → α → List (Nat × α)
  | [], a, v => [(a, v)]
  | (b, w) :: rest, a, v =>
    if a < b then (a, v) :: (b, w) :: rest
    else if a = b then (a, v) :: rest
    else (b, w) :: writeCell rest a v

/-- The cells of a row of bytes at consecutive addresses from `a`. -/
def cellsFrom : Nat → List Byte → Memory
  | _, [] => []
  | a, b :: rest => (a, b) :: cellsFrom (a + 1) rest

/-! ### The payload space (R50, R51) -/

/-- The payload space is in canonical form. -/
abbrev Memory.wf (m : Memory) : Prop := cellsWf m

/-- The host presents a buffer: index 0 first (R50, R51). -/
def State.presentBuffer (s : State) (buffer : List Byte) : State := { s with payload := cellsFrom 0 buffer }

/-- `MemRead(i, 1)`: the payload byte at index `i` (R51); a free value where the host wrote none (log entry 6). -/
def State.payloadByte (s : State) (i : Nat) : Byte :=
  (readCell s.payload i).getD (Config.unsetPayload s.steps i)

/-- The first `n` payload bytes, as captured at acceptance (R51, R141). -/
def State.capturePayload (s : State) (n : Nat) : List Byte := (List.range n).map s.payloadByte

/-! ### The trace, the clock, the pin -/

/-- Append an event at the current true time (R12). -/
def State.record (s : State) (e : Event) : State := { s with trace := s.trace ++ [(s.time, e)] }

/-- `Now()`: the true time modulo `2^W_TIME` (R60). -/
def State.now (s : State) : Time := BitVec.ofNat 32 s.time

/-- `LEVEL[p]`; none is `unwritten` (R26). -/
def State.levelOf (s : State) (p : PinId) : Option Level := readCell s.level p.toNat

/-- `PinWrite(p, lv)`: sets `LEVEL[p]` and no other pin, and is an event, also when the level is already there
(R26, R55, R61). -/
def State.pinWrite (s : State) (p : PinId) (lv : Level) : State :=
  { s with level := writeCell s.level p.toNat lv }.record (.pinWrite p lv)

/-- `PinMode(p, OUTPUT)`: an event, and nothing else the block or the sink holds (R61). -/
def State.pinMode (s : State) (p : PinId) : State := s.record (.pinMode p)

/-- `c <- Now()` with its event (R111). -/
def State.readClock (s : State) : State := s.record (.clockRead s.now)

/-- `LTT <- Now()`, a stamp (R114). -/
def State.stamp (s : State) : State := { s.readClock with ltt := s.now }

/-- Name the next micro-step (R24). -/
def State.goPhase (s : State) (ph : Phase) : State := { s with ph := ph }

/-- One poll of `WaitUntil(LTT)`: a clock read, then on to `next` where the comparator says so, else stay (R111, R114). -/
def State.poll (s : State) (next : Phase) : State :=
  s.readClock.goPhase (if waitOver s.now s.ltt then next else s.ph)

/-! ### A frame's entry and exit (R141, R146, R147) -/

/-- Acceptance and step 1, one atomic step: `Accept`, `MODE <- BUSY`, the payload captured, one clock read, the biased
`LTT`, position `(0, WAIT_A)` (R141). -/
def State.beginFrame (s : State) (payload : List Byte) (src : PayloadSource) : State :=
  { (s.record (.accept payload)).readClock with
    mode := .busy, pbuf := payload, nlen := payload.length, psrc := src,
    ltt := frameStartRef s.now, k := 0, ph := .waitA }

/-- Step 6: `MODE <- IDLE` and the event `Done` (R146). `K`, `PH`, `NLEN` and `PBUF` keep their last values, where R20 and
R146 leave them unspecified while IDLE (DESIGN CHOICE, log entry 21). -/
def State.endFrame (s : State) : State := { s with mode := .idle }.record .done

/-- `K <- K + 1` and `PH <- WAIT_A` (R147). -/
def State.advanceSymbol (s : State) : State := { s with k := s.k + 1, ph := .waitA }

/-- What follows the second stamp of a symbol: the end of the frame after its last symbol, else `(K+1, WAIT_A)` (R147). -/
def State.nextSymbol (s : State) : State :=
  if s.k + 1 = symbolCount s.nlen then s.endFrame else s.advanceSymbol

/-! ### Acceptance -/

/-- A command is accepted only when `MODE = IDLE` (R23). -/
def State.whenIdle (s t : State) : Host.Outcome State Fault Refusal :=
  match s.mode with
  | .idle => .next t
  | .busy => .refused .commandWhileBusy

/-- A micro-step is taken only when `MODE = BUSY` (R147). -/
def State.whenBusy (s t : State) : Host.Outcome State Fault Refusal :=
  match s.mode with
  | .idle => .refused .symbolWhileIdle
  | .busy => .next t

/-! ### Reset (R210) -/

/-- The reset event: the block takes its reset state; the pins keep their levels, no event is recorded, and the clock
and the host are not the block's to reset (R30 to R33, R210, R211). The unspecified registers are zero, as in
`State.reset` (DESIGN CHOICE, log entry 2). -/
def State.resetBlock (s : State) : State :=
  { s with
    pin := Config.defaultPin, ltt := 0, mode := .idle, k := 0, ph := .waitA, nlen := 0, pbuf := [], psrc := .operand }

end Sys2Proof.Machine
end

