-- ==== Sys2Proof/Machine/BitTransmitter.lean ====
section
/-! DEFINITION. The Bit Transmitter: SEND_SYMBOL ZERO and SEND_SYMBOL ONE, one micro-step at a time. Spec:
40_bit_transmitter.md R110 to R115. -/

namespace Sys2Proof.Machine

/-- The micro-step `PH` names, for the symbol being sent (R114). -/
def State.microStep (s : State) (sym : Symbol) : State :=
  match s.ph with
  | .waitA => s.poll .writeA
  | .writeA => (s.pinWrite s.pin (firstLevel sym)).goPhase .stampA
  | .stampA => s.stamp.goPhase .waitB
  | .waitB => s.poll .writeB
  | .writeB => (s.pinWrite s.pin (secondLevel sym)).goPhase .stampB
  | .stampB => s.stamp.nextSymbol

/-- SEND_SYMBOL ZERO (R112): the next micro-step of a symbol sent as HIGH, then LOW. -/
def execSendSymbolZero (s : State) : Host.Outcome State Fault Refusal := s.whenBusy (s.microStep .zero)

/-- SEND_SYMBOL ONE (R113): the next micro-step of a symbol sent as LOW, then HIGH. -/
def execSendSymbolOne (s : State) : Host.Outcome State Fault Refusal := s.whenBusy (s.microStep .one)

end Sys2Proof.Machine
end

