-- ==== Sys2Proof/Machine/Configuration.lean ====
section
/-! DEFINITION. The configuration command and the reserved command code. Spec: 42_configuration.md R170 to R173. -/

namespace Sys2Proof.Machine

/-- SET_TRANSMIT_PIN (R170): `PIN <- pin_id`, then `PinMode(pin_id, OUTPUT)`, in one step; nothing else. -/
def execSetTransmitPin (pin : PinId) (s : State) : Host.Outcome State Fault Refusal :=
  s.whenIdle ({ s with pin := pin }.pinMode pin)

/-- The reserved command code (R173): "the step function gives it no meaning and marks the run refused". -/
def execReservedCmd3 (_arg : BitVec 16) (_s : State) : Host.Outcome State Fault Refusal :=
  .refused .reservedCommand

end Sys2Proof.Machine
end

