-- ==== Sys2Proof/Machine/FrameTransmitter.lean ====
section
/-! DEFINITION. The Frame Transmitter's two commands. What follows their acceptance is the sequencer's walk (Environment,
BitTransmitter). Spec: 41_frame_transmitter.md R140, R141, R148. -/

namespace Sys2Proof.Machine

/-- TRANSMIT_FRAME with `length` bytes (R140): the payload is captured by value at acceptance (R51). Length 0 is
accepted like any other (R149). -/
def execTransmitFrame (length : Nat) (s : State) : Host.Outcome State Fault Refusal :=
  s.whenIdle (s.beginFrame (s.capturePayload length) .hostBuffer)

/-- TRANSMIT_U16 (R148): the frame of the operand's high byte, then its low byte. -/
def execTransmitU16 (value : BitVec 16) (s : State) : Host.Outcome State Fault Refusal :=
  s.whenIdle (s.beginFrame (splitU16 value) .operand)

end Sys2Proof.Machine
end

