-- ==== Sys2Proof/Machine/Dispatch.lean ====
section
/-! DEFINITION. exec: one arm per instruction, each one call of its meaning. -/

namespace Sys2Proof.Machine

def exec (i : Instr) (s : State) : Host.Outcome State Fault Refusal :=
  match i with
  | .setTransmitPin pin => Sys2Proof.Machine.execSetTransmitPin pin s
  | .transmitU16 value => Sys2Proof.Machine.execTransmitU16 value s
  | .transmitFrame length => Sys2Proof.Machine.execTransmitFrame length s
  | .reservedCmd3 arg => Sys2Proof.Machine.execReservedCmd3 arg s
  | .sendSymbolZero => Sys2Proof.Machine.execSendSymbolZero s
  | .sendSymbolOne => Sys2Proof.Machine.execSendSymbolOne s

end Sys2Proof.Machine
end

