-- ==== Sys2Proof/WellFormed.lean ====
section
/-! DEFINITION. Which instructions the encodings can express, and which instruction the host may issue. Operands other
than the payload length are bit vectors of the width the spec gives them, so only the length needs a check. -/

namespace Sys2Proof

/-- The instruction can be written in its encoding: a payload length is at most `LEN_MAX` (R82, R140). Every pin
identifier, every 16-bit value and length 0 are legal (R89 (c) to (e)). -/
def Instr.wf : Instr → Bool
  | .setTransmitPin _ => true
  | .transmitU16 _ => true
  | .transmitFrame length => decide (length ≤ Config.lenMax)
  | .reservedCmd3 _ => true
  | .sendSymbolZero => true
  | .sendSymbolOne => true

/-- The instruction is one of the three commands the host may issue: not the reserved code (R89 (a)) and not the
internal SEND_SYMBOL (R91, R174). -/
def Instr.hostIssued : Instr → Bool
  | .setTransmitPin _ => true
  | .transmitU16 _ => true
  | .transmitFrame _ => true
  | .reservedCmd3 _ => false
  | .sendSymbolZero => false
  | .sendSymbolOne => false

/-- The buffer that goes with a command is exactly the one the instruction takes: `length` bytes for TRANSMIT_FRAME
("`length` is its length", R91), none for any other. -/
def Instr.bufferFits (i : Instr) (buffer : List Byte) : Bool :=
  match i with
  | .transmitFrame length => decide (buffer.length = length)
  | .setTransmitPin _ => buffer.isEmpty
  | .transmitU16 _ => buffer.isEmpty
  | .reservedCmd3 _ => buffer.isEmpty
  | .sendSymbolZero => buffer.isEmpty
  | .sendSymbolOne => buffer.isEmpty

end Sys2Proof
end

