-- ==== Sys2Proof/Decode.lean ====
section
/-! DEFINITION. The decoder and the encoder of the two instruction encodings: the 18-bit command word (format `CMD`) and
the one-bit symbol code (format `SYM`). Spec: 30_encoding.md R80 to R83, R89; opcode_table.json. -/

namespace Sys2Proof

/-- An encoded instruction, as the block meets it: a word on the command port or a symbol code of the sequencer. -/
inductive CodeWord where
  | command (cw : CmdWord)
  | symbol (code : SymCode)
deriving DecidableEq, Repr

/-- `CW[17:16]` (R81). -/
def opField (cw : CmdWord) : BitVec 2 := cw.extractLsb' 16 2

/-- `CW[15:0]` (R81). -/
def argField (cw : CmdWord) : BitVec 16 := cw.extractLsb' 0 16

/-- The command a word names (R82); every word names one, `op = 0b11` the reserved command (R89 (a)). -/
def decodeCommand (cw : CmdWord) : Instr :=
  if opField cw = 0b00#2 then .setTransmitPin (argField cw)
  else if opField cw = 0b01#2 then .transmitU16 (argField cw)
  else if opField cw = 0b10#2 then .transmitFrame (argField cw).toNat
  else .reservedCmd3 (argField cw)

/-- The symbol operation a data bit selects: ZERO for 0, ONE for 1 (R83). -/
def decodeSymbol (code : SymCode) : Instr :=
  if code = 1#1 then .sendSymbolOne else .sendSymbolZero

/-- The decoder: total on both formats. -/
def decode : CodeWord → Instr
  | .command cw => decodeCommand cw
  | .symbol code => decodeSymbol code

/-- A command word from its two fields (R81). -/
def commandWord (op : BitVec 2) (arg : BitVec 16) : CodeWord := .command (op ++ arg)

/-- The encoder, from the tables of R82 and R83. -/
def encode : Instr → CodeWord
  | .setTransmitPin pin => commandWord 0b00#2 pin
  | .transmitU16 value => commandWord 0b01#2 value
  | .transmitFrame length => commandWord 0b10#2 (BitVec.ofNat 16 length)
  | .reservedCmd3 arg => commandWord 0b11#2 arg
  | .sendSymbolZero => .symbol 0#1
  | .sendSymbolOne => .symbol 1#1

/-- The two instruction formats of R80. -/
inductive Format where
  | cmd
  | sym
deriving DecidableEq, Repr

/-- Why a row of bytes is no encoded instruction. -/
inductive DecodeError where
  /-- The format takes another number of bytes (`CMD` three, `SYM` one). -/
  | wrongLength
  /-- A bit above the format's width (18 or 1) is set; the port has no such wire. -/
  | paddingSet
deriving DecidableEq, Repr

/-- The decoder on whole bytes, the first byte holding the least significant bits (log entry 9): total, and rejecting
by name what is no word of the format. -/
def decodeBytes (f : Format) (bytes : List Byte) : Except DecodeError Instr :=
  match f, bytes with
  | .cmd, [b0, b1, b2] =>
    if b2.toNat < 4 then .ok (decodeCommand (b2.extractLsb' 0 2 ++ (b1 ++ b0))) else .error .paddingSet
  | .sym, [b0] => if b0.toNat < 2 then .ok (decodeSymbol (b0.extractLsb' 0 1)) else .error .paddingSet
  | .cmd, _ => .error .wrongLength
  | .sym, _ => .error .wrongLength

/-- The format of an opcode-table row of `nbits` bits: one byte holds a symbol code, anything longer a command word. -/
def formatOfWidth (nbits : Nat) : Format := if nbits ≤ 8 then .sym else .cmd

/-- The bytes of a table word, lowest first: one for a symbol code, three for a command word. -/
def tableBytes (f : Format) (w : Nat) : List Byte :=
  match f with
  | .sym => [BitVec.ofNat 8 w]
  | .cmd => [BitVec.ofNat 8 w, BitVec.ofNat 8 (w / 256), BitVec.ofNat 8 (w / 65536)]

/-- The largest number the bytes of a format can hold, plus one. -/
def tableLimit : Format → Nat
  | .sym => 256
  | .cmd => 16777216

/-- The instruction the decoder reads from a word numbered as spec/opcode_table.json numbers its bits. -/
def decodeTableWord (nbits w : Nat) : Option Instr :=
  if nbits = 0 ∨ tableLimit (formatOfWidth nbits) ≤ w then none
  else (decodeBytes (formatOfWidth nbits) (tableBytes (formatOfWidth nbits) w)).toOption

end Sys2Proof
end

