-- ==== Sys2Proof/Machine/Environment.lean ====
section
/-! DEFINITION. What stands around exec in a step: the inputs of the outside world (time, reset, host stores), where the
next instruction comes from (the command port while IDLE, the frame sequencer while BUSY), and how a table word is put
there. Spec: 00_scope.md R11, R15; 20_memory.md R59, R60; 41_frame_transmitter.md R147; 60_exceptions.md R190. -/

namespace Sys2Proof.Machine

/-- What the outside world does at this step: the next listed input; past the list's end no reset, no store, and a
free amount of time (log entry 5). -/
def State.nextInput (s : State) : Input :=
  match s.inputs with
  | [] => { advance := Config.clockAdvance s.steps, reset := false, store := none }
  | i :: _ => i

/-- The step's input is taken off the list. -/
def State.takeInput (s : State) : State := { s with inputs := s.inputs.tail }

/-- The host has presented the first command of its list (R15). -/
def State.dropCommand (s : State) : State := { s with commands := s.commands.tail }

/-- No pin write of payload byte `i` has been made yet: its first symbol `15 + 8*i` is still to come, or is the one
being sent and its first level is not yet written (R51, R59). -/
def State.byteUnsent (s : State) (i : Nat) : Bool :=
  decide (s.k < headSymbols + Config.bitsPerByte * i) ||
    (decide (s.k = headSymbols + Config.bitsPerByte * i) && (decide (s.ph = .waitA) || decide (s.ph = .writeA)))

/-- The host changes byte `i` of its buffer. While a frame is sent from that buffer, a byte of it not yet sent goes out
with either value: a race (R59, R214; log entry 7). -/
def State.hostStore (s : State) (i : Nat) (b : Byte) : State :=
  { s with
    payload := writeCell s.payload i b
    pbuf :=
      if s.mode = .busy ∧ s.psrc = .hostBuffer ∧ s.byteUnsent i = true ∧ Config.raceTakesNew s.steps = true
      then s.pbuf.set i b else s.pbuf }

/-- The host store of a step's input, if it has one. -/
def State.applyStore (s : State) (store : Option (Nat × Byte)) : State :=
  match store with
  | none => s
  | some (i, b) => s.hostStore i b

/-- The clock environment lets `d` microseconds pass, and the step is counted (R11, R60). -/
def State.elapse (s : State) (d : Nat) : State := { s with time := s.time + d, steps := s.steps + 1 }

/-- Time passes after a next state; a refusal stays what it is. -/
def elapseAfter (d : Nat) : Host.Outcome State Fault Refusal → Host.Outcome State Fault Refusal
  | .next t => .next (t.elapse d)
  | .fault r => .fault r
  | .refused r => .refused r

/-- Where the block's next instruction comes from. -/
inductive Fetched where
  /-- IDLE and no command presented: the block has no step (R147). -/
  | nothing
  /-- An encoded instruction, and the state that runs it. -/
  | code (w : CodeWord) (s : State)
  /-- BUSY with no symbol at the position. -/
  | pastFrame
deriving DecidableEq, Repr

/-- While IDLE the host's next command, with its buffer on the payload space (R15, R50); while BUSY the symbol at
position `K`, as the one-bit code the Frame Transmitter gives the Bit Transmitter (R147). -/
def State.fetch (s : State) : Fetched :=
  match s.mode with
  | .idle =>
    match s.commands with
    | [] => .nothing
    | c :: _ => .code (.command c.word) (s.dropCommand.presentBuffer c.buffer)
  | .busy =>
    match frameSymbol s.pbuf s.k with
    | none => .pastFrame
    | some sym => .code (.symbol (symbolCode sym)) s

/-- How many payload bytes of zeros a command word needs with it: the length field of TRANSMIT_FRAME. -/
def bufferLengthOf (cw : CmdWord) : Nat :=
  match decodeCommand cw with
  | .transmitFrame n => n
  | .setTransmitPin _ => 0
  | .transmitU16 _ => 0
  | .reservedCmd3 _ => 0
  | .sendSymbolZero => 0
  | .sendSymbolOne => 0

/-- The next input with no reset and no host store in it. -/
def calmInputs : List Input → List Input
  | [] => []
  | i :: rest => { i with reset := false, store := none } :: rest

/-- Put a table word where the next step takes its instruction from: a command word first in the host's list, the block
IDLE, with a payload of zeros; a symbol code as bit 0 of a one-byte payload, the sequencer about to send that symbol
(`K = 15`). A number that is no word of its format changes nothing. -/
def State.placeWord (s : State) (nbits w : Nat) : State :=
  match formatOfWidth nbits with
  | .cmd =>
    if w < 2 ^ 18 then
      { s with
        mode := .idle, inputs := calmInputs s.inputs
        commands := ⟨BitVec.ofNat 18 w, List.replicate (bufferLengthOf (BitVec.ofNat 18 w)) 0⟩ :: s.commands }
    else s
  | .sym =>
    if w < 2 then
      { s with
        mode := .busy, inputs := calmInputs s.inputs, nlen := 1, pbuf := [BitVec.ofNat 8 w], k := headSymbols
        ph := .waitA, psrc := .operand }
    else s

end Sys2Proof.Machine
end

