-- ==== Sys2Proof/Machine/Step.lean ====
section
/-! DEFINITION. One step of the machine: the outside world's input, then one step of the block at the current true time,
then time passes. Spec: 00_scope.md R11, 41_frame_transmitter.md R147, 70_reset_and_hazards.md R210. -/

namespace Sys2Proof.Machine

/-- The block's own step: the fetched instruction runs; an idle block with no command does nothing (R147). -/
def State.blockStep (s : State) : Host.Outcome State Fault Refusal :=
  match s.fetch with
  | .nothing => .next s
  | .code w t => exec (decode w) t
  | .pastFrame => .refused .positionPastFrame

/-- One step. Reset wins over everything (R184, R210). -/
def step (s : State) : Host.Outcome State Fault Refusal :=
  let i := s.nextInput
  let t := s.takeInput.applyStore i.store
  elapseAfter i.advance (if i.reset then .next t.resetBlock else t.blockStep)

/-- `s` with a table word placed where the next step takes its instruction from. -/
def State.withFetchWord (s : State) (nbits w : Nat) : State := s.placeWord nbits w

end Sys2Proof.Machine
end

