-- ==== Sys2Proof/Safety.lean ====
section
/-! DEFINITION. The terms in which claims are stated: runs, the record of the current frame read off the trace, the
invariants of the machine, the schedules of the outside world a claim may take as its premise. Spec: 00_scope.md R12, R15;
40_bit_transmitter.md R116 to R118; 70_reset_and_hazards.md R210 to R223. -/

namespace Sys2Proof.Safety

open Sys2Proof.Machine

/-! ### Runs -/

/-- The state after `n` steps, if every one of them gives a next state. -/
def runSteps : Nat → State → Option State
  | 0, s => some s
  | n + 1, s =>
    match step s with
    | .next t => runSteps n t
    | .fault _ => none
    | .refused _ => none

/-! ### The current frame, read off the trace -/

/-- What the trace says of the frame accepted last: when it was accepted, its pin writes and its stamps in order, when it
was done. A stamp is the clock read that follows a pin write (R114). -/
structure FrameRecord where
  start : Option Nat
  writes : List (Nat × PinId × Level)
  stamps : List Nat
  afterWrite : Bool
  doneAt : Option Nat
deriving DecidableEq, Repr

/-- No frame accepted yet. -/
def FrameRecord.empty : FrameRecord :=
  { start := none, writes := [], stamps := [], afterWrite := false, doneAt := none }

/-- One event of the trace. An acceptance opens a new record. -/
def FrameRecord.add (r : FrameRecord) (e : Nat × Event) : FrameRecord :=
  match e.2 with
  | .accept _ => { FrameRecord.empty with start := some e.1 }
  | .pinWrite p lv => { r with writes := r.writes ++ [(e.1, p, lv)], afterWrite := true }
  | .clockRead _ =>
    { r with stamps := if r.afterWrite = true then r.stamps ++ [e.1] else r.stamps, afterWrite := false }
  | .pinMode _ => r
  | .done => { r with doneAt := some e.1 }

/-- The record of the frame accepted last. -/
def frameRecord (tr : Trace) : FrameRecord := tr.foldl FrameRecord.add FrameRecord.empty

/-- The pin writes of the record without their times: the untimed projection (R12). -/
def FrameRecord.levels (r : FrameRecord) : List (PinId × Level) := r.writes.map fun w => w.2

/-- The true times of the pin writes of the record. -/
def FrameRecord.times (r : FrameRecord) : List Nat := r.writes.map fun w => w.1

/-- Every time of the list is at least a Half-Bit Interval after every earlier one. -/
abbrev spaced (times : List Nat) : Prop := times.Pairwise fun t u => t + 1000 ≤ u

/-! ### Where a frame stands -/

/-- How many of a symbol's two pin writes are made before the micro-step of this phase. -/
def writesIn : Phase → Nat
  | .waitA => 0
  | .writeA => 0
  | .stampA => 1
  | .waitB => 1
  | .writeB => 1
  | .stampB => 2

/-- How many of a symbol's two stamps are made before the micro-step of this phase. -/
def stampsIn : Phase → Nat
  | .waitA => 0
  | .writeA => 0
  | .stampA => 0
  | .waitB => 1
  | .writeB => 1
  | .stampB => 1

/-- How many pin writes of the running frame are made. -/
def writesMade (s : State) : Nat := 2 * s.k + writesIn s.ph

/-- How many stamps of the running frame are made. -/
def stampsMade (s : State) : Nat := 2 * s.k + stampsIn s.ph

/-! ### Invariants -/

/-- The registers and the two spaces are consistent: both cell lists in canonical form, `NLEN` the length of `PBUF`, and
`K` inside the frame (R24, R25). -/
structure SequencerInv (s : State) : Prop where
  payload_wf : Memory.wf s.payload
  level_wf : cellsWf s.level
  nlen_eq : s.mode = .busy → s.nlen = s.pbuf.length
  k_lt : s.mode = .busy → s.k < symbolCount s.nlen

/-- While a frame is sent, the pin writes made since its acceptance are the first ones of `frame_levels(PBUF)`, all on
`PIN`, as many as the position says (R86, R147); the frame is not done; and `LEVEL[PIN]` is the last level written. -/
structure WaveformInv (s : State) : Prop where
  sequencer : SequencerInv s
  writes : s.mode = .busy →
    (frameRecord s.trace).levels = ((frameLevels s.pbuf).take (writesMade s)).map fun lv => (s.pin, lv)
  not_done : s.mode = .busy → (frameRecord s.trace).doneAt = none
  last_level : s.mode = .busy → ∀ w, (frameRecord s.trace).levels.getLast? = some w → s.levelOf s.pin = some w.2

/-- What the next micro-step of a running frame accepted at `c0` may rely on (R111, R114, R141). In a wait: `LTT` is the
biased frame start or the last stamp. Before a write: a whole interval has passed since the last write and the last
stamp. Before a stamp: a whole interval has passed since the last stamp. -/
def phaseTiming (s : State) (r : FrameRecord) (c0 : Nat) : Prop :=
  match s.ph with
  | .waitA =>
    if s.k = 0 then s.ltt = BitVec.ofNat 32 c0 + 10#32 - 1000#32
    else ∃ σ, r.stamps.getLast? = some σ ∧ s.ltt = BitVec.ofNat 32 σ ∧ σ ≤ s.time ∧ (∀ t ∈ r.times, t ≤ σ)
      ∧ (∀ u ∈ r.stamps, u ≤ σ) ∧ c0 + 1000 * (writesMade s - 1) + 10 ≤ σ
  | .waitB =>
    ∃ σ, r.stamps.getLast? = some σ ∧ s.ltt = BitVec.ofNat 32 σ ∧ σ ≤ s.time ∧ (∀ t ∈ r.times, t ≤ σ)
      ∧ (∀ u ∈ r.stamps, u ≤ σ) ∧ c0 + 1000 * (writesMade s - 1) + 10 ≤ σ
  | .writeA =>
    c0 + 1000 * writesMade s + 10 ≤ s.time ∧ (∀ t ∈ r.times, t + 1000 ≤ s.time) ∧ (∀ u ∈ r.stamps, u + 1000 ≤ s.time)
  | .writeB =>
    c0 + 1000 * writesMade s + 10 ≤ s.time ∧ (∀ t ∈ r.times, t + 1000 ≤ s.time) ∧ (∀ u ∈ r.stamps, u + 1000 ≤ s.time)
  | .stampA =>
    c0 + 1000 * (writesMade s - 1) + 10 ≤ s.time ∧ (∀ t ∈ r.times, t ≤ s.time) ∧ (∀ u ∈ r.stamps, u + 1000 ≤ s.time)
  | .stampB =>
    c0 + 1000 * (writesMade s - 1) + 10 ≤ s.time ∧ (∀ t ∈ r.times, t ≤ s.time) ∧ (∀ u ∈ r.stamps, u + 1000 ≤ s.time)

/-- The timing of the frame accepted last, finished or not: consecutive pin writes and consecutive stamps are never less
than a Half-Bit Interval apart (R116), no write comes earlier than 10 microseconds after the frame-start clock read
(R141), and a frame is not done before its nominal end (R223); with what the next micro-step relies on. -/
structure TimingInv (s : State) : Prop where
  writes_spaced : spaced (frameRecord s.trace).times
  stamps_spaced : spaced (frameRecord s.trace).stamps
  first_write : ∀ c0, (frameRecord s.trace).start = some c0 → ∀ t ∈ (frameRecord s.trace).times, c0 + 10 ≤ t
  done_time : ∀ c0 d, (frameRecord s.trace).start = some c0 → (frameRecord s.trace).doneAt = some d →
    c0 + 1000 * ((frameRecord s.trace).writes.length - 1) + 10 ≤ d
  running : s.mode = .busy → ∃ c0, (frameRecord s.trace).start = some c0 ∧ c0 ≤ s.time
    ∧ (frameRecord s.trace).doneAt = none
    ∧ (frameRecord s.trace).writes.length = writesMade s
    ∧ (frameRecord s.trace).stamps.length = stampsMade s
    ∧ ((frameRecord s.trace).afterWrite = true ↔ (s.ph = .stampA ∨ s.ph = .stampB))
    ∧ phaseTiming s (frameRecord s.trace) c0

/-- The block writes only a pin it asked to be an output, or the default pin, for which the block asks nothing
(R57 (c), R171). -/
def PinSelectedInv (s : State) : Prop :=
  s.pin = Config.defaultPin ∨ .pinMode s.pin ∈ s.trace.map fun e => e.2

/-! ### Premises about the outside world -/

/-- No reset at the coming step. -/
abbrev noReset (s : State) : Prop := s.nextInput.reset = false

/-- The host's next command, if it has one, is one of the three defined commands (R89 (a), R190). -/
abbrev nextCommandDefined (s : State) : Prop :=
  ∀ c rest, s.commands = c :: rest → (decodeCommand c.word).hostIssued = true

/-- An input at which nothing happens but the passing of `d` microseconds. -/
def calm (d : Nat) : Input := { advance := d, reset := false, store := none }

/-- The inputs of `n` half-bits in which the block polls, writes and stamps without delay and the clock is next looked
at one Half-Bit Interval later (R117, R223: the zero-overhead run, its polls before the target left out). -/
def promptHalves (n : Nat) : List Input := (List.replicate n [calm 0, calm 0, calm 1000]).flatten

/-- The inputs of a whole frame of `count` symbols without delay: acceptance, 10 microseconds, then the half-bits. -/
def promptFrame (count : Nat) : List Input := calm 10 :: promptHalves (2 * count)

/-- A live clock that is looked at often enough: no reset, and from one step to the next at least one microsecond and at
most 2^31 pass (R216, R217). Host stores are allowed. -/
abbrev liveInputs (inputs : List Input) : Prop :=
  ∀ i ∈ inputs, i.reset = false ∧ 1 ≤ i.advance ∧ i.advance ≤ 2 ^ 31

/-! ### The micro-step table -/

/-- R114's table written out field by field: the state after the micro-step `PH` names, for a symbol whose two levels are
`first` and `second`. After the last stamp `K`, `PH`, `NLEN` and `PBUF`, unspecified there, keep their values (DESIGN
CHOICE, log entry 21). -/
def microStepTable (s : State) (first second : Level) : State :=
  let now : Time := BitVec.ofNat 32 s.time
  match s.ph with
  | .waitA =>
    { s with
      trace := s.trace ++ [(s.time, .clockRead now)]
      ph := if 1000 ≤ (now - s.ltt).toNat then .writeA else .waitA }
  | .writeA =>
    { s with
      trace := s.trace ++ [(s.time, .pinWrite s.pin first)]
      level := writeCell s.level s.pin.toNat first, ph := .stampA }
  | .stampA => { s with trace := s.trace ++ [(s.time, .clockRead now)], ltt := now, ph := .waitB }
  | .waitB =>
    { s with
      trace := s.trace ++ [(s.time, .clockRead now)]
      ph := if 1000 ≤ (now - s.ltt).toNat then .writeB else .waitB }
  | .writeB =>
    { s with
      trace := s.trace ++ [(s.time, .pinWrite s.pin second)]
      level := writeCell s.level s.pin.toNat second, ph := .stampB }
  | .stampB =>
    if s.k + 1 = 17 + 8 * s.nlen then
      { s with
        trace := s.trace ++ [(s.time, .clockRead now)] ++ [(s.time, .done)], ltt := now, mode := .idle }
    else
      { s with
        trace := s.trace ++ [(s.time, .clockRead now)], ltt := now, k := s.k + 1, ph := .waitA }

end Sys2Proof.Safety
end

