-- ==== Sys2Proof/Certificates/Slice0/Obligations.lean ====
section
/-! DEFINITION. The statements for the provers. Each docstring names the rule of spec/ it formalises. -/

open Sys2Proof Sys2Proof.Machine Sys2Proof.Safety

/-! ### Reset -/

/-- R30, R33: after power-on and after a reset event the pin is the default pin, the block is IDLE, and no event is
recorded; at power-on every pin is unwritten, and a later reset leaves every level as it was. -/
def Obligations.ResetLeavesDefaultPinAndNoEvent : Prop :=
  (State.reset.pin = Config.defaultPin ∧ State.reset.mode = .idle ∧ State.reset.busyFlag = 0#1 ∧ State.reset.trace = [] ∧
    ∀ p, State.reset.levelOf p = none) ∧
  ∀ s : State, s.resetBlock.pin = Config.defaultPin ∧ s.resetBlock.mode = .idle ∧ s.resetBlock.busyFlag = 0#1 ∧
    s.resetBlock.trace = s.trace ∧ ∀ p, s.resetBlock.levelOf p = s.levelOf p

/-- R210: a step at which reset is asserted is the reset event, whatever the block was doing: no pin write, no `Done`, the
levels kept. (That the host's next command waits for the step after is the model's choice, log 13.) -/
def Obligations.ResetEndsAnythingAtOnce : Prop :=
  ∀ s : State, s.nextInput.reset = true →
    ∃ t, step s = .next t ∧ t.pin = Config.defaultPin ∧ t.mode = .idle ∧ t.busyFlag = 0#1 ∧ t.trace = s.trace ∧
      (∀ p, t.levelOf p = s.levelOf p) ∧ t.commands = s.commands ∧ t.time = s.time + s.nextInput.advance

/-- R31, R32: while IDLE no command reads `LTT`, `K`, `PH`, `NLEN` or `PBUF`: whatever they hold, an accepted frame is the
same, and SET_TRANSMIT_PIN leaves them as they are. (So nothing rests on the zeros the model gives them at reset, its
own choice, log 2.) -/
def Obligations.UnspecifiedRegistersAreNotRead : Prop :=
  ∀ (s : State) (ltt : Time) (k : Nat) (ph : Phase) (nlen : Nat) (pbuf : List Byte), s.mode = .idle →
    (∀ n, exec (.transmitFrame n) { s with ltt := ltt, k := k, ph := ph, nlen := nlen, pbuf := pbuf } =
      exec (.transmitFrame n) s) ∧
    (∀ v, exec (.transmitU16 v) { s with ltt := ltt, k := k, ph := ph, nlen := nlen, pbuf := pbuf } =
      exec (.transmitU16 v) s) ∧
    ∀ p, ∃ t, exec (.setTransmitPin p) s = .next t ∧
      exec (.setTransmitPin p) { s with ltt := ltt, k := k, ph := ph, nlen := nlen, pbuf := pbuf } =
        .next { t with ltt := ltt, k := k, ph := ph, nlen := nlen, pbuf := pbuf }

/-! ### Configuration -/

/-- R170: encoded with `op = 0b00`; accepted in IDLE, SET_TRANSMIT_PIN writes `PIN`, issues `PinMode`, and does nothing
else; it is not accepted while BUSY. (That the command, for which the port has no step in BUSY, is refused there is the
model's choice, log 11.) -/
def Obligations.SetTransmitPinSelectsPin : Prop :=
  ∀ (s : State) (p : PinId),
    decodeCommand (0b00#2 ++ p) = .setTransmitPin p ∧
    (s.mode = .idle →
      exec (.setTransmitPin p) s = .next { s with pin := p, trace := s.trace ++ [(s.time, .pinMode p)] }) ∧
    (s.mode = .busy → exec (.setTransmitPin p) s = .refused .commandWhileBusy)

/-- R172: a reconfiguration leaves `LTT` alone, and the frame accepted after it is the frame that would have been accepted
without it, but for the pin. -/
def Obligations.ReconfigurationChangesOnlyThePin : Prop :=
  ∀ (s : State) (p : PinId) (n : Nat), s.mode = .idle →
    ∃ t u v, exec (.setTransmitPin p) s = .next t ∧ t.ltt = s.ltt ∧
      exec (.transmitFrame n) t = .next u ∧ exec (.transmitFrame n) s = .next v ∧
      u = { v with pin := p, trace := u.trace } ∧
      u.trace = s.trace ++ [(s.time, .pinMode p)] ++ v.trace.drop s.trace.length

/-- The frame of SET_TRANSMIT_PIN: no register but `PIN`, no level, no byte of the payload space, no time. -/
def Obligations.SetTransmitPinLeavesTheRest : Prop :=
  ∀ (s t : State) (p : PinId), exec (.setTransmitPin p) s = .next t →
    t.ltt = s.ltt ∧ t.mode = s.mode ∧ t.k = s.k ∧ t.ph = s.ph ∧ t.nlen = s.nlen ∧ t.pbuf = s.pbuf ∧ t.psrc = s.psrc ∧
      t.busyFlag = s.busyFlag ∧ (∀ q, t.levelOf q = s.levelOf q) ∧ (∀ a, readCell t.payload a = readCell s.payload a) ∧
      t.time = s.time ∧ t.commands = s.commands ∧ t.inputs = s.inputs ∧ t.steps = s.steps

/-- R173: the reserved command code has no meaning; a step that takes such a word is refused by name. -/
def Obligations.ReservedCommandRefused : Prop :=
  (∀ (arg : BitVec 16) (s : State), exec (.reservedCmd3 arg) s = .refused .reservedCommand) ∧
  (∀ arg : BitVec 16, decodeCommand (0b11#2 ++ arg) = .reservedCmd3 arg) ∧
  ∀ (s : State) (c : Command) (rest : List Command), s.mode = .idle → noReset s → s.commands = c :: rest →
    opField c.word = 0b11#2 → step s = .refused .reservedCommand

/-! ### Acceptance of a frame -/

/-- R141: acceptance is one step: `Accept`, BUSY, the payload captured, one clock read `c0`, `LTT = c0 + 10 - 1000`,
position `(0, WAIT_A)`. The first wait then never ends before 10 microseconds have passed, and ends exactly then if it
is polled before the difference aliases. (That the `Accept` event carries the payload is the model's choice, log 8;
`psrc` is the model's own field, log 3; that the command, for which the port has no step in BUSY, is refused there is the
model's choice, log 11.) -/
def Obligations.TransmitFrameAccepted : Prop :=
  ∀ (s : State) (n : Nat),
    (s.mode = .idle →
      exec (.transmitFrame n) s = .next
        { s with
          mode := .busy, pbuf := (List.range n).map s.payloadByte, nlen := n, psrc := .hostBuffer
          ltt := BitVec.ofNat 32 s.time + 10#32 - 1000#32, k := 0, ph := .waitA
          trace := s.trace ++
            [(s.time, .accept ((List.range n).map s.payloadByte)), (s.time, .clockRead (BitVec.ofNat 32 s.time))] }) ∧
    (s.mode = .busy → exec (.transmitFrame n) s = .refused .commandWhileBusy) ∧
    ∀ r, s.time ≤ r →
      (waitOver (BitVec.ofNat 32 r) (BitVec.ofNat 32 s.time + 10#32 - 1000#32) = true → s.time + 10 ≤ r) ∧
      (r + 990 < s.time + 2 ^ 32 →
        (waitOver (BitVec.ofNat 32 r) (BitVec.ofNat 32 s.time + 10#32 - 1000#32) = true ↔ s.time + 10 ≤ r))

/-- R52, R88: TRANSMIT_U16 is accepted in IDLE and is the frame of the operand's high byte, then its low byte: the state it
leaves is the one TRANSMIT_FRAME leaves for that two-byte buffer, the host's buffer apart. (The traces are equal too: that
TRANSMIT_U16 records the same `Accept` event as the TRANSMIT_FRAME it expands to is the model's choice, log 8; `psrc` is
the model's own field, log 3.) -/
def Obligations.TransmitU16IsTheTwoByteFrame : Prop :=
  ∀ (s : State) (v : BitVec 16), s.mode = .idle →
    ∃ t, exec (.transmitU16 v) s = .next t ∧
      t.pbuf = [BitVec.ofNat 8 (v.toNat / 256), BitVec.ofNat 8 (v.toNat % 256)] ∧
      exec (.transmitFrame 2) (s.presentBuffer t.pbuf) =
        .next { t with payload := cellsFrom 0 t.pbuf, psrc := .hostBuffer } ∧
      (v = 1234#16 → t.pbuf = [0x04#8, 0xD2#8])

/-- R51: the payload is used by value: the buffer given with the command is what is captured, index 0 first, and no byte
at index `N` or above is read. -/
def Obligations.PayloadCapturedByValue : Prop :=
  (∀ (s : State) (c : Command) (rest : List Command), s.mode = .idle → noReset s → s.commands = c :: rest →
    decodeCommand c.word = .transmitFrame c.buffer.length →
    ∃ t, step s = .next t ∧ t.mode = .busy ∧ t.pbuf = c.buffer ∧ t.nlen = c.buffer.length) ∧
  (∀ (s : State) (n i : Nat) (b : Byte), s.mode = .idle → i < n → readCell s.payload i = some b →
    ∃ t, exec (.transmitFrame n) s = .next t ∧ t.pbuf[i]? = some b) ∧
  ∀ (s : State) (n : Nat) (m : Memory), s.mode = .idle → (∀ i, i < n → readCell m i = readCell s.payload i) →
    ∃ t, exec (.transmitFrame n) s = .next t ∧
      exec (.transmitFrame n) { s with payload := m } = .next { t with payload := m }

/-- R149: length 0 is accepted, reads no payload, and its frame is 14 ZERO, one ONE, two ZERO: 17 symbols, 34 writes. -/
def Obligations.ZeroLengthFrameAccepted : Prop :=
  frameSymbols [] = List.replicate 14 .zero ++ [.one] ++ List.replicate 2 .zero ∧
  (frameSymbols []).length = 17 ∧ (frameLevels []).length = 34 ∧
  ∀ (s : State) (m : Memory), s.mode = .idle →
    ∃ t, exec (.transmitFrame 0) s = .next t ∧ t.pbuf = [] ∧ t.nlen = 0 ∧ t.mode = .busy ∧
      exec (.transmitFrame 0) { s with payload := m } = .next { t with payload := m }

/-- The frame of the two transmit commands: acceptance writes no pin and no payload byte and leaves `PIN`. -/
def Obligations.TransmitAcceptanceLeavesTheRest : Prop :=
  ∀ (s t : State) (i : Instr), (∃ n, i = .transmitFrame n) ∨ (∃ v, i = .transmitU16 v) → exec i s = .next t →
    t.pin = s.pin ∧ (∀ q, t.levelOf q = s.levelOf q) ∧ (∀ a, readCell t.payload a = readCell s.payload a) ∧
      t.time = s.time ∧ t.commands = s.commands ∧ t.inputs = s.inputs ∧ t.steps = s.steps

/-- R151: nothing spaces frames apart: accepted at any moment, whatever came before, a frame makes its first pin write
(HIGH) as soon as 10 microseconds later. -/
def Obligations.NextFrameStartsTenMicrosecondsLater : Prop :=
  ∀ (s : State) (c : Command) (rest : List Command) (more : List Input) (n : Nat), s.mode = .idle →
    s.commands = c :: rest → decodeCommand c.word = .transmitFrame n →
    s.inputs = calm 10 :: calm 0 :: calm 0 :: more →
    ∃ t, runSteps 3 s = some t ∧ t.trace.getLast? = some (s.time + 10, .pinWrite s.pin .high)

/-! ### The encodings of the line -/

/-- R83: a data bit selects ZERO for 0 and ONE for 1, and the one-bit code of the symbol is that bit. -/
def Obligations.DataBitSelectsSymbol : Prop :=
  selSymbol false = .zero ∧ selSymbol true = .one ∧ symbolCode .zero = 0#1 ∧ symbolCode .one = 1#1 ∧
    decodeSymbol 0#1 = .sendSymbolZero ∧ decodeSymbol 1#1 = .sendSymbolOne

/-- R84: the line code: ZERO is HIGH then LOW, ONE is LOW then HIGH; as bits `10` and `01`; the second half is always the
opposite of the first. -/
def Obligations.LineCodeOfSymbols : Prop :=
  (firstLevel .zero = .high ∧ secondLevel .zero = .low ∧ firstLevel .one = .low ∧ secondLevel .one = .high) ∧
  (levelBit (firstLevel .zero) = 1#1 ∧ levelBit (secondLevel .zero) = 0#1 ∧ levelBit (firstLevel .one) = 0#1 ∧
    levelBit (secondLevel .one) = 1#1) ∧
  ∀ s, levelBit (secondLevel s) = ~~~ levelBit (firstLevel s)

/-- R85: the frame by segments: 14 ZERO, one ONE, eight symbols a byte with the least significant bit first, two ZERO;
`17 + 8*N` symbols and `34 + 16*N` levels. -/
def Obligations.FrameIsPreambleStartPayloadTerminator : Prop :=
  ∀ p : List Byte,
    frameSymbols p = List.replicate 14 .zero ++ [.one] ++
      (p.flatMap fun b => (List.range 8).map fun j => if b.getLsbD j then .one else .zero) ++ List.replicate 2 .zero ∧
    (frameSymbols p).length = 17 + 8 * p.length ∧ (frameLevels p).length = 34 + 16 * p.length

/-- R86: the frame as a function of the symbol index, and the levels at `2*k` and `2*k + 1`. -/
def Obligations.FrameAsAFunctionOfTheIndex : Prop :=
  ∀ (p : List Byte) (k : Nat),
    (frameSymbols p)[k]? =
      (if k ≤ 13 then some .zero
      else if k = 14 then some .one
      else if k ≤ 14 + 8 * p.length then (p[(k - 15) / 8]?).map fun b => selSymbol (b.getLsbD ((k - 15) % 8))
      else if k ≤ 16 + 8 * p.length then some .zero
      else none) ∧
    (frameLevels p)[2 * k]? = ((frameSymbols p)[k]?).map firstLevel ∧
    (frameLevels p)[2 * k + 1]? = ((frameSymbols p)[k]?).map secondLevel

/-- R87: payload symbol `j`, symbol `15 + j` of the frame, is bit `j mod 8` of byte `j div 8`; the rule's four example
bytes. -/
def Obligations.PayloadSymbolIsBitOfByte : Prop :=
  (∀ (p : List Byte) (j : Nat) (h : j < 8 * p.length),
    frameSymbol p (15 + j) = payloadSymbol p j ∧
    payloadSymbol p j =
      some (if (p[j / 8]'(by omega) >>> (j % 8)) &&& 1#8 = 1#8 then .one else .zero)) ∧
  (List.range 8).filterMap (payloadSymbol [0b00000001#8]) = .one :: List.replicate 7 .zero ∧
  (List.range 8).filterMap (payloadSymbol [0b10000000#8]) = List.replicate 7 .zero ++ [.one] ∧
  (List.range 8).filterMap (payloadSymbol [0x00#8]) = List.replicate 8 .zero ∧
  (List.range 8).filterMap (payloadSymbol [0xFF#8]) = List.replicate 8 .one

/-- R53: bytes in buffer order, each least significant bit first; so the payload symbols of TRANSMIT_U16 carry bits 8 to
15, then bits 0 to 7. -/
def Obligations.BytesInOrderBitsLowFirst : Prop :=
  (∀ (p : List Byte) (i j : Nat) (h : i < p.length), j < 8 →
    frameSymbol p (15 + 8 * i + j) = some (selSymbol ((p[i]).getLsbD j))) ∧
  ∀ (v : BitVec 16) (j : Nat), j < 8 →
    frameSymbol (splitU16 v) (15 + j) = some (selSymbol (v.getLsbD (8 + j))) ∧
    frameSymbol (splitU16 v) (23 + j) = some (selSymbol (v.getLsbD j))

/-! ### The Bit Transmitter -/

/-- R9: time arithmetic is modulo `2^32`, and the comparison is unsigned. -/
def Obligations.TimeArithmeticIsModular : Prop :=
  ∀ a b : Time,
    (tadd a b).toNat = (a.toNat + b.toNat) % 2 ^ 32 ∧
    ((tsub a b).toNat : Int) = ((a.toNat : Int) - (b.toNat : Int)) % 2 ^ 32 ∧
    (waitOver a b = true ↔ 1000 ≤ (tsub a b).toNat)

/-- R111: one poll of a wait reads the clock and ends the wait exactly if the unsigned difference is at least 1000; it
writes nothing but the position. Where neither the target nor the clock wraps, that is `now >= ref + 1000`. -/
def Obligations.PollEndsWaitExactlyAtInterval : Prop :=
  (∀ now ref : Time, ref.toNat ≤ now.toNat → (waitOver now ref = true ↔ ref.toNat + 1000 ≤ now.toNat)) ∧
  ∀ (s : State) (i : Instr), i = .sendSymbolZero ∨ i = .sendSymbolOne → s.mode = .busy →
    ∀ wait write, (wait = .waitA ∧ write = .writeA) ∨ (wait = .waitB ∧ write = .writeB) → s.ph = wait →
      (1000 ≤ (BitVec.ofNat 32 s.time - s.ltt).toNat →
        exec i s = .next
          { s with ph := write, trace := s.trace ++ [(s.time, .clockRead (BitVec.ofNat 32 s.time))] }) ∧
      ((BitVec.ofNat 32 s.time - s.ltt).toNat < 1000 →
        exec i s = .next { s with trace := s.trace ++ [(s.time, .clockRead (BitVec.ofNat 32 s.time))] })

/-- R114: in BUSY each SEND_SYMBOL runs the micro-step `PH` names, as the rule's table gives it, with HIGH then LOW for
ZERO and LOW then HIGH for ONE; a step of the machine is that micro-step for the symbol at index `K`, at the current
true time, and then any amount of time may pass. (At the last stamp of a frame the equality says of the now IDLE block
that `K`, `PH`, `NLEN` and `PBUF` keep their values: there R20 and R146 leave them unspecified, and keeping them is the
model's choice, log 21.) -/
def Obligations.SendSymbolRunsTheMicroStepTable : Prop :=
  (∀ s : State, s.mode = .busy →
    exec .sendSymbolZero s = .next (microStepTable s .high .low) ∧
    exec .sendSymbolOne s = .next (microStepTable s .low .high)) ∧
  ∀ (s : State) (sym : Sys2Proof.Symbol) (d : Nat) (more : List Input), s.mode = .busy →
    frameSymbol s.pbuf s.k = some sym → s.inputs = calm d :: more →
    step s = .next
      { microStepTable s (firstLevel sym) (secondLevel sym) with
        inputs := more, time := s.time + d, steps := s.steps + 1 }

/-- R147, R174: in IDLE the block has no micro-step, and no bare symbol can be sent. (That a micro-operation met there is
refused is the model's choice, log 10; no run meets one.) -/
def Obligations.NoSymbolWhileIdle : Prop :=
  ∀ (s : State) (i : Instr), i = .sendSymbolZero ∨ i = .sendSymbolOne → s.mode = .idle →
    exec i s = .refused .symbolWhileIdle

/-- The frame of SEND_SYMBOL: no register but `LTT` (at the stamps), `PH`, `K` and `MODE` (after the second stamp); no
level but that of `PIN`, and that only at the two writes; no byte of the payload space. (That `NLEN` and `PBUF` are kept
at the last stamp of a frame too, where the block turns IDLE and they are unspecified, is the model's choice, log 21.) -/
def Obligations.SendSymbolLeavesTheRest : Prop :=
  ∀ (s t : State) (i : Instr), i = .sendSymbolZero ∨ i = .sendSymbolOne → exec i s = .next t →
    t.pin = s.pin ∧ t.nlen = s.nlen ∧ t.pbuf = s.pbuf ∧ t.psrc = s.psrc ∧ t.time = s.time ∧ t.commands = s.commands ∧
    t.inputs = s.inputs ∧ t.steps = s.steps ∧ (∀ a, readCell t.payload a = readCell s.payload a) ∧
    (∀ q, q ≠ s.pin ∨ (s.ph ≠ .writeA ∧ s.ph ≠ .writeB) → t.levelOf q = s.levelOf q) ∧
    (s.ph ≠ .stampA → s.ph ≠ .stampB → t.ltt = s.ltt) ∧
    (s.ph ≠ .stampB → t.k = s.k ∧ t.mode = s.mode ∧ t.busyFlag = s.busyFlag)

/-- R116, R117, R119, R217, on true times: a wait that ends at `r` with the reference taken at `σ ≤ r` never ends before
`σ + 1000`, however often the clock wrapped; and below `2^32` microseconds it ends exactly from `σ + 1000` on. -/
def Obligations.WaitNeverEndsEarly : Prop :=
  ∀ σ r : Nat, σ ≤ r →
    (waitOver (BitVec.ofNat 32 r) (BitVec.ofNat 32 σ) = true → σ + 1000 ≤ r) ∧
    (r < σ + 2 ^ 32 → (waitOver (BitVec.ofNat 32 r) (BitVec.ofNat 32 σ) = true ↔ σ + 1000 ≤ r))

/-- R112, R113: a whole symbol, its waits over when first polled and half a bit apart: two pin writes 1000 microseconds
apart, HIGH then LOW for ZERO and LOW then HIGH for ONE, `LTT` the second stamp, `PBUF` unchanged. (For the last symbol
of a frame, after which the block is IDLE and `PBUF` unspecified, that it is kept is the model's choice, log 21.) -/
def Obligations.WholeSymbolWritesTwoLevels : Prop :=
  ∀ (s : State) (sym : Sys2Proof.Symbol) (more : List Input), s.mode = .busy → s.ph = .waitA →
    frameSymbol s.pbuf s.k = some sym → 1000 ≤ (BitVec.ofNat 32 s.time - s.ltt).toNat →
    s.inputs = promptHalves 2 ++ more →
    ∃ t, runSteps 6 s = some t ∧
      (sym = .zero → (frameRecord t.trace).writes =
        (frameRecord s.trace).writes ++ [(s.time, s.pin, .high), (s.time + 1000, s.pin, .low)]) ∧
      (sym = .one → (frameRecord t.trace).writes =
        (frameRecord s.trace).writes ++ [(s.time, s.pin, .low), (s.time + 1000, s.pin, .high)]) ∧
      t.ltt = BitVec.ofNat 32 (s.time + 1000) ∧ t.inputs = more ∧ t.pbuf = s.pbuf

/-! ### The step -/

/-- A step in IDLE runs the instruction its first command word decodes to, with the command's buffer presented on the
payload space; then time passes. (That the host presents its next command as soon as the block is IDLE, with its
buffer, is the model's choice, logs 11 and 20.) -/
def Obligations.StepRunsTheDecodedCommand : Prop :=
  ∀ (s : State) (c : Command) (rest : List Command), s.mode = .idle → noReset s → s.commands = c :: rest →
    step s = elapseAfter s.nextInput.advance
      (exec (decodeCommand c.word) { s with inputs := s.inputs.tail, commands := rest, payload := cellsFrom 0 c.buffer })

/-- A step in BUSY runs the symbol at position `K`, after the host's store of that step; then time passes. (That the
host's store of a step is made before the step's micro-step is the model's choice, log 7: no rule orders the two.) -/
def Obligations.StepRunsTheSelectedSymbol : Prop :=
  ∀ (s t : State) (sym : Sys2Proof.Symbol), t = s.takeInput.applyStore s.nextInput.store → s.mode = .busy → noReset s →
    frameSymbol t.pbuf t.k = some sym →
    step s = elapseAfter s.nextInput.advance (exec (decodeSymbol (symbolCode sym)) t)

/-- R193: while IDLE with no command the block does nothing and holds its state; time passes. (R193 names `PIN`, `LTT` and
the levels; that `K`, `PH`, `NLEN` and `PBUF`, unspecified while IDLE, are kept too is the model's choice, log 21.) -/
def Obligations.IdleBlockHoldsItsState : Prop :=
  ∀ s : State, s.mode = .idle → noReset s → s.commands = [] →
    ∃ t, step s = .next t ∧ t.time = s.time + s.nextInput.advance ∧ t.pin = s.pin ∧ t.ltt = s.ltt ∧ t.mode = .idle ∧
      t.k = s.k ∧ t.ph = s.ph ∧ t.nlen = s.nlen ∧ t.pbuf = s.pbuf ∧ (∀ p, t.levelOf p = s.levelOf p) ∧ t.trace = s.trace

/-- R59, R214: a host store changes its byte of the payload space; it can change `PBUF` only at its own index, and never
while IDLE, in a frame of TRANSMIT_U16, or once the byte's first pin write is made. (That the race is a free choice
made at the store is the model's, log 7.) -/
def Obligations.HostStoreRacesOnlyWithUnsentBytes : Prop :=
  ∀ (s : State) (i : Nat) (b : Byte),
    ((s.hostStore i b).pbuf = s.pbuf ∨ (s.hostStore i b).pbuf = s.pbuf.set i b) ∧
    (s.mode = .idle ∨ s.psrc = .operand ∨ 15 + 8 * i < s.k ∨ (s.k = 15 + 8 * i ∧ s.ph ≠ .waitA ∧ s.ph ≠ .writeA) →
      (s.hostStore i b).pbuf = s.pbuf) ∧
    (∀ a, readCell (s.hostStore i b).payload a = if a = i then some b else readCell s.payload a) ∧
    s.hostStore i b = { s with payload := (s.hostStore i b).payload, pbuf := (s.hostStore i b).pbuf }

/-- R180: no step ever faults, and a step is refused only for the reserved command code; every other one has a next
state. -/
def Obligations.OnlyTheReservedCommandIsRefused : Prop :=
  ∀ s : State, SequencerInv s →
    (∃ t, step s = .next t) ∨
    (step s = .refused .reservedCommand ∧ s.mode = .idle ∧
      ∃ c rest, s.commands = c :: rest ∧ opField c.word = 0b11#2)

/-! ### Whole-machine rules -/

/-- R23: IDLE to BUSY only by accepting TRANSMIT_FRAME or TRANSMIT_U16, and always by that; BUSY to IDLE only by the second
stamp of the last symbol, or by reset; SET_TRANSMIT_PIN leaves `MODE`; the flag `BUSY` is 1 exactly in BUSY; no
command is accepted there. That the last stamp does end the frame is `LastStampEndsTheWholeFrame`. (That a command met in
BUSY, where the port has no step, is refused is the model's choice, log 11.) -/
def Obligations.ModeChangesOnlyAtAcceptanceAndLastStamp : Prop :=
  (∀ s t : State, step s = .next t → s.mode = .idle → t.mode = .busy →
    ∃ c rest, s.commands = c :: rest ∧
      ((∃ n, decodeCommand c.word = .transmitFrame n) ∨ (∃ v, decodeCommand c.word = .transmitU16 v))) ∧
  (∀ s t : State, step s = .next t → s.mode = .busy → t.mode = .idle →
    s.nextInput.reset = true ∨ (s.ph = .stampB ∧ s.k + 1 = 17 + 8 * s.nlen)) ∧
  (∀ (s : State) (n : Nat), s.mode = .idle → ∃ t, exec (.transmitFrame n) s = .next t ∧ t.mode = .busy) ∧
  (∀ (s : State) (v : BitVec 16), s.mode = .idle → ∃ t, exec (.transmitU16 v) s = .next t ∧ t.mode = .busy) ∧
  (∀ (s : State) (p : PinId), s.mode = .idle → ∃ t, exec (.setTransmitPin p) s = .next t ∧ t.mode = .idle) ∧
  (∀ s : State, s.busyFlag = 1#1 ↔ s.mode = .busy) ∧
  ∀ (s : State) (i : Instr), s.mode = .busy → i.hostIssued = true → exec i s = .refused .commandWhileBusy

/-- R21: `PIN` changes only by SET_TRANSMIT_PIN and by reset; so it is constant for the whole of a frame. -/
def Obligations.PinChangesOnlyByConfigurationOrReset : Prop :=
  ∀ s t : State, step s = .next t → t.pin ≠ s.pin →
    (s.nextInput.reset = true ∧ t.pin = Config.defaultPin) ∨
    (s.mode = .idle ∧ ∃ c rest, s.commands = c :: rest ∧ decodeCommand c.word = .setTransmitPin t.pin)

/-- R22: `LTT` is written at a frame start with the biased value and at the two stamps with the clock, and by reset;
nowhere else. -/
def Obligations.LttWrittenOnlyAtStartAndStamps : Prop :=
  ∀ s t : State, step s = .next t → t.ltt ≠ s.ltt →
    s.nextInput.reset = true ∨
    (s.mode = .idle ∧ t.mode = .busy ∧ t.ltt = BitVec.ofNat 32 s.time + 10#32 - 1000#32) ∨
    (s.mode = .busy ∧ (s.ph = .stampA ∨ s.ph = .stampB) ∧ t.ltt = BitVec.ofNat 32 s.time)

/-- R26, R120: a step changes the level of no pin but `PIN`, and that one only at the two writes of a symbol. -/
def Obligations.LevelsChangeOnlyOnThePin : Prop :=
  ∀ s t : State, step s = .next t →
    (∀ p, p ≠ s.pin → t.levelOf p = s.levelOf p) ∧
    (t.levelOf s.pin ≠ s.levelOf s.pin → s.mode = .busy ∧ (s.ph = .writeA ∨ s.ph = .writeB))

/-- R12, R60, R215: the true time never goes backward, and a step only appends to the trace, at most two events, each at
the time of the step. -/
def Obligations.TimeAndTraceOnlyGrow : Prop :=
  ∀ s t : State, step s = .next t →
    s.time ≤ t.time ∧
      ∃ events : List (Nat × Event), t.trace = s.trace ++ events ∧ events.length ≤ 2 ∧ ∀ e ∈ events, e.1 = s.time

/-! ### Invariants -/

/-- The consistency of registers and cell lists holds at power-on. -/
def Obligations.SequencerInvAtReset : Prop := SequencerInv State.reset

/-- Every step keeps the consistency of registers and cell lists: the payload space and the levels stay in canonical
form, `NLEN` stays the length of `PBUF`, and `K` stays inside the frame (R24, R25). -/
def Obligations.SequencerInvKept : Prop := ∀ s t : State, SequencerInv s → step s = .next t → SequencerInv t

/-- The waveform invariant holds at power-on. -/
def Obligations.WaveformInvAtReset : Prop := WaveformInv State.reset

/-- Every step keeps the waveform invariant: the pin writes since the acceptance are the first ones of
`frame_levels(PBUF)` on `PIN`, as many as the position says, whatever the clock does and whatever the host stores. -/
def Obligations.WaveformInvKept : Prop := ∀ s t : State, WaveformInv s → step s = .next t → WaveformInv t

/-- The timing invariant holds at power-on. -/
def Obligations.TimingInvAtReset : Prop := TimingInv State.reset

/-- Every step keeps the timing invariant: within a frame pin writes and stamps are never less than 1000 microseconds
apart (R116), no write comes earlier than 10 microseconds after the start (R141), and no frame is done before its
nominal end (R223), for every schedule of the clock. -/
def Obligations.TimingInvKept : Prop := ∀ s t : State, TimingInv s → step s = .next t → TimingInv t

/-- At power-on the pin is the default pin. -/
def Obligations.PinSelectedInvAtReset : Prop := PinSelectedInv State.reset

/-- Every step keeps: `PIN` is the default pin or was put into output mode by a `PinMode` of the trace (R57 (c), R171). -/
def Obligations.PinSelectedInvKept : Prop := ∀ s t : State, PinSelectedInv s → step s = .next t → PinSelectedInv t

/-- R146: the second stamp of the last symbol ends the frame: IDLE, `BUSY` 0, `Done` recorded, every level of the frame
written on `PIN` in order, the pin LOW, `LTT` the last stamp, `PIN` unchanged. The payload is the one the frame was sent
from: nothing is said of `PBUF` after it. -/
def Obligations.LastStampEndsTheWholeFrame : Prop :=
  ∀ s : State, WaveformInv s → s.mode = .busy → s.ph = .stampB → s.k + 1 = 17 + 8 * s.nlen → noReset s →
    ∃ t, step s = .next t ∧ t.mode = .idle ∧ t.busyFlag = 0#1 ∧ t.trace.getLast? = some (s.time, .done) ∧
      (frameRecord t.trace).levels = (frameLevels s.pbuf).map (fun lv => (s.pin, lv)) ∧
      t.levelOf s.pin = some .low ∧ t.ltt = BitVec.ofNat 32 s.time ∧ t.pin = s.pin

/-! ### Runs of a whole frame -/

/-- R223, R117: in the run without delay a frame of `N` bytes accepted at `c0` makes pin write `j` at
`c0 + 10 + 1000*j`, with the levels of `frame_levels`, and is done at `c0 + 10 + 1000*(2*S - 1)`, `S = 17 + 8*N`. -/
def Obligations.PromptFrameTakesItsNominalTime : Prop :=
  ∀ (s : State) (c : Command) (rest : List Command) (more : List Input), s.mode = .idle → s.commands = c :: rest →
    decodeCommand c.word = .transmitFrame c.buffer.length →
    s.inputs = promptFrame (17 + 8 * c.buffer.length) ++ more →
    ∃ t, runSteps (1 + 6 * (17 + 8 * c.buffer.length)) s = some t ∧ t.mode = .idle ∧ t.commands = rest ∧
      t.inputs = more ∧ t.pin = s.pin ∧
      (frameRecord t.trace).doneAt = some (s.time + 10 + 1000 * (2 * (17 + 8 * c.buffer.length) - 1)) ∧
      (frameRecord t.trace).writes = (frameLevels c.buffer).mapIdx (fun j lv => (s.time + 10 + 1000 * j, s.pin, lv))

/-- R15, R147, R216: a frame ends: from any consistent BUSY state, if at every step between 1 and `2^31` microseconds pass
and no reset is asserted, the block is IDLE again, with `Done` recorded, after at most 2006 steps a symbol. -/
def Obligations.LiveClockEndsEveryFrame : Prop :=
  ∀ s : State, SequencerInv s → s.mode = .busy → liveInputs s.inputs →
    2006 * (17 + 8 * s.nlen) ≤ s.inputs.length →
    ∃ n t, n ≤ 2006 * (17 + 8 * s.nlen) ∧ runSteps n s = some t ∧ t.mode = .idle ∧
      ∃ d, t.trace.getLast? = some (d, .done)

/-! ### Encodings of the instructions -/

/-- Decoding an encoded well-formed instruction gives it back, every operand at every value the encoding admits
(R81 to R83). -/
def Obligations.DecodeOfEncode : Prop := ∀ i : Instr, i.wf = true → decode (encode i) = i

/-- Encoding a decoded word gives it back: no bit of a word is dropped, and every decoded instruction is well formed. -/
def Obligations.EncodeOfDecode : Prop := ∀ w : CodeWord, encode (decode w) = w ∧ (decode w).wf = true

/-- R82: the operation a command word names, by the number in its two top bits, with the low 16 bits as argument. -/
def Obligations.CommandNamedByOperationCode : Prop :=
  ∀ cw : CmdWord,
    decodeCommand cw =
      if cw.toNat / 65536 = 0 then .setTransmitPin (BitVec.ofNat 16 cw.toNat)
      else if cw.toNat / 65536 = 1 then .transmitU16 (BitVec.ofNat 16 cw.toNat)
      else if cw.toNat / 65536 = 2 then .transmitFrame (cw.toNat % 65536)
      else .reservedCmd3 (BitVec.ofNat 16 cw.toNat)

/-- The byte decoder reads exactly the words of the two formats: three bytes below `2^18`, or one byte below 2; anything
else is rejected by name. (The layout in bytes is the model's choice, log 9.) -/
def Obligations.ByteDecoderAcceptsExactlyTheWords : Prop :=
  (∀ b0 b1 b2 : Byte, b2.toNat < 4 →
    decodeBytes .cmd [b0, b1, b2] = .ok (decodeCommand (BitVec.ofNat 18 (b0.toNat + 256 * b1.toNat + 65536 * b2.toNat)))) ∧
  (∀ b0 b1 b2 : Byte, 4 ≤ b2.toNat → decodeBytes .cmd [b0, b1, b2] = .error .paddingSet) ∧
  (∀ b0 : Byte, b0.toNat < 2 → decodeBytes .sym [b0] = .ok (decodeSymbol (BitVec.ofNat 1 b0.toNat))) ∧
  (∀ b0 : Byte, 2 ≤ b0.toNat → decodeBytes .sym [b0] = .error .paddingSet) ∧
  (∀ bytes : List Byte, bytes.length ≠ 3 → decodeBytes .cmd bytes = .error .wrongLength) ∧
  ∀ bytes : List Byte, bytes.length ≠ 1 → decodeBytes .sym bytes = .error .wrongLength

/-- A few words of 95_test_vectors.md V2.8, and the two symbol codes. -/
def Obligations.VectorWordsDecode : Prop :=
  decode (.command 0x00007#18) = .setTransmitPin 7 ∧ decode (.command 0x104D2#18) = .transmitU16 1234 ∧
    decode (.command 0x20002#18) = .transmitFrame 2 ∧ decode (.command 0x20000#18) = .transmitFrame 0 ∧
    decode (.command 0x3FFFF#18) = .reservedCmd3 0xFFFF ∧ decode (.symbol 0#1) = .sendSymbolZero ∧
    decode (.symbol 1#1) = .sendSymbolOne
end

