-- ==== Sys2Proof/Laws/Cells.lean ====
section
/-! SUPPORT. What the cell-list operations do: a read after a write, the canonical form kept, a presented buffer read back. -/

namespace Sys2Proof.Machine

/-- A read after a write: the value written at its address, the old value anywhere else. -/
theorem readCell_writeCell {α : Type} (cells : List (Nat × α)) (a b : Nat) (v : α) :
    readCell (writeCell cells a v) b = if b = a then some v else readCell cells b := by
  induction cells with
  | nil => simp [writeCell, readCell]
  | cons c rest ih =>
    obtain ⟨d, w⟩ := c
    by_cases hlt : a < d
    · simp [writeCell, hlt, readCell]
    · by_cases heq : a = d
      · subst heq
        by_cases hb : b = a <;> simp [writeCell, readCell, hb]
      · by_cases hb : b = d
        · subst hb
          simp [writeCell, hlt, heq, readCell, Ne.symm heq]
        · simp [writeCell, hlt, heq, readCell, hb, ih]

/-- Every cell of a written list is the one written or one that was there. -/
theorem mem_writeCell {α : Type} {cells : List (Nat × α)} {a : Nat} {v : α} {c : Nat × α}
    (h : c ∈ writeCell cells a v) : c = (a, v) ∨ c ∈ cells := by
  induction cells with
  | nil => simpa [writeCell] using h
  | cons d rest ih =>
    obtain ⟨b, w⟩ := d
    simp only [writeCell] at h
    split at h
    · simpa using h
    · split at h
      · rcases List.mem_cons.mp h with h | h
        · exact .inl h
        · exact .inr (List.mem_cons_of_mem _ h)
      · rcases List.mem_cons.mp h with h | h
        · exact .inr (by simp [h])
        · exact (ih h).imp id (List.mem_cons_of_mem _)

/-- A write keeps the canonical form. -/
theorem writeCell_wf {α : Type} {cells : List (Nat × α)} (h : cellsWf cells) (a : Nat) (v : α) :
    cellsWf (writeCell cells a v) := by
  induction cells with
  | nil => simp [cellsWf, writeCell]
  | cons d rest ih =>
    obtain ⟨b, w⟩ := d
    have hd := List.pairwise_cons.mp h
    simp only [writeCell]
    split
    · rename_i hlt
      refine List.pairwise_cons.mpr ⟨fun c hc => ?_, h⟩
      rcases List.mem_cons.mp hc with rfl | hc
      · exact hlt
      · exact Nat.lt_trans hlt (hd.1 c hc)
    · split
      · rename_i heq
        subst heq
        exact List.pairwise_cons.mpr ⟨fun c hc => hd.1 c hc, hd.2⟩
      · rename_i hlt hne
        refine List.pairwise_cons.mpr ⟨fun c hc => ?_, ih hd.2⟩
        rcases mem_writeCell hc with rfl | hc
        · simp only; omega
        · exact hd.1 c hc

/-- The cells of a buffer presented from address `a` lie at `a` or above. -/
theorem le_of_mem_cellsFrom {bytes : List Byte} {a : Nat} {c : Host.Cell} (h : c ∈ cellsFrom a bytes) : a ≤ c.1 := by
  induction bytes generalizing a with
  | nil => simp [cellsFrom] at h
  | cons b rest ih =>
    rcases List.mem_cons.mp h with rfl | h
    · exact Nat.le_refl _
    · exact Nat.le_of_succ_le (ih h)

/-- A presented buffer is in canonical form. -/
theorem cellsFrom_wf (a : Nat) (bytes : List Byte) : cellsWf (cellsFrom a bytes) := by
  induction bytes generalizing a with
  | nil => exact List.Pairwise.nil
  | cons b rest ih => exact List.pairwise_cons.mpr ⟨fun c hc => le_of_mem_cellsFrom hc, ih (a + 1)⟩

/-- A presented buffer reads back byte by byte. -/
theorem readCell_cellsFrom (a i : Nat) (bytes : List Byte) : readCell (cellsFrom a bytes) (a + i) = bytes[i]? := by
  induction bytes generalizing a i with
  | nil => simp [cellsFrom, readCell]
  | cons b rest ih =>
    cases i with
    | zero => simp [cellsFrom, readCell]
    | succ i =>
      have hne : a + (i + 1) ≠ a := by omega
      simp only [cellsFrom, readCell, if_neg hne]
      rw [show a + (i + 1) = a + 1 + i from by omega, ih]
      simp

/-- What is captured of a presented buffer of the right length is the buffer (R51). -/
theorem capturePayload_presentBuffer (s : State) (buffer : List Byte) :
    (s.presentBuffer buffer).capturePayload buffer.length = buffer := by
  apply List.ext_getElem
  · simp [State.capturePayload]
  · intro i h1 h2
    have := readCell_cellsFrom 0 i buffer
    simp only [Nat.zero_add] at this
    simp [State.capturePayload, State.payloadByte, State.presentBuffer, this, List.getElem?_eq_getElem h2]

@[simp] theorem capturePayload_length (s : State) (n : Nat) : (s.capturePayload n).length = n := by
  simp [State.capturePayload]

end Sys2Proof.Machine
end

