-- ==== Sys2Proof/Laws/Encoding.lean ====
section
/-! SUPPORT. The two fields of a command word (R81), read from a word put together and put together from a word. -/

namespace Sys2Proof

/-- The operation code of a word put together from its fields. -/
theorem opField_append (op : BitVec 2) (arg : BitVec 16) : opField (op ++ arg) = op := by
  apply BitVec.eq_of_toNat_eq
  have h := arg.isLt
  have h' := op.isLt
  rw [opField, BitVec.extractLsb'_toNat, BitVec.toNat_append, Nat.shiftRight_eq_div_pow, ← Nat.shiftLeft_add_eq_or_of_lt h,
    Nat.shiftLeft_eq]
  omega

/-- The argument of a word put together from its fields. -/
theorem argField_append (op : BitVec 2) (arg : BitVec 16) : argField (op ++ arg) = arg := by
  apply BitVec.eq_of_toNat_eq
  have h := arg.isLt
  rw [argField, BitVec.extractLsb'_toNat, BitVec.toNat_append, Nat.shiftRight_eq_div_pow, ← Nat.shiftLeft_add_eq_or_of_lt h,
    Nat.shiftLeft_eq]
  omega

/-- A word is its two fields put together. -/
theorem append_fields (cw : CmdWord) : opField cw ++ argField cw = cw := by
  apply BitVec.eq_of_toNat_eq
  have h := cw.isLt
  have ha := (argField cw).isLt
  rw [BitVec.toNat_append, ← Nat.shiftLeft_add_eq_or_of_lt ha, Nat.shiftLeft_eq, opField, argField,
    BitVec.extractLsb'_toNat, BitVec.extractLsb'_toNat, Nat.shiftRight_eq_div_pow, Nat.shiftRight_eq_div_pow]
  omega

/-- The operation code as a number: the word divided by `2^16`. -/
theorem opField_toNat (cw : CmdWord) : (opField cw).toNat = cw.toNat / 65536 := by
  have h := cw.isLt
  rw [opField, BitVec.extractLsb'_toNat, Nat.shiftRight_eq_div_pow]
  omega

/-- The argument as a number: the word modulo `2^16`. -/
theorem argField_toNat (cw : CmdWord) : (argField cw).toNat = cw.toNat % 65536 := by
  rw [argField, BitVec.extractLsb'_toNat, Nat.shiftRight_eq_div_pow]
  omega

/-- A payload length can be written in the command word exactly if it is at most `LEN_MAX` = 65535 (R82). -/
theorem wf_transmitFrame (n : Nat) : (Instr.transmitFrame n).wf = true ↔ n ≤ 65535 := decide_eq_true_iff

/-- The instruction of a word put together from its fields. -/
theorem decodeCommand_append (op : BitVec 2) (arg : BitVec 16) :
    decodeCommand (op ++ arg) =
      if op = 0b00#2 then .setTransmitPin arg
      else if op = 0b01#2 then .transmitU16 arg
      else if op = 0b10#2 then .transmitFrame arg.toNat
      else .reservedCmd3 arg := by
  rw [decodeCommand, opField_append, argField_append]

end Sys2Proof
end

