-- ==== Sys2Proof/Laws/Frame.lean ====
section
/-! SUPPORT. The frame as a function: its symbols by segment, and the lists made from it. -/

namespace Sys2Proof.Machine

@[simp] theorem headSymbols_eq : headSymbols = 15 := rfl
@[simp] theorem preambleZeros_eq : Config.preambleZeros = 14 := rfl
@[simp] theorem termZeros_eq : Config.termZeros = 2 := rfl
@[simp] theorem bitsPerByte_eq : Config.bitsPerByte = 8 := rfl

theorem symbolCount_eq (n : Nat) : symbolCount n = 17 + 8 * n := by
  simp [symbolCount]; omega

/-- Every payload symbol number below `8*N` names a symbol. -/
theorem payloadSymbol_some {p : List Byte} {j : Nat} (h : j < 8 * p.length) : ∃ s, payloadSymbol p j = some s := by
  have h8 : j / 8 < p.length := by omega
  simp [payloadSymbol, List.getElem?_eq_getElem h8]

/-- The preamble (R142). -/
theorem frameSymbol_preamble (p : List Byte) {k : Nat} (h : k < 14) : frameSymbol p k = some .zero := by
  simp [frameSymbol, h]

/-- The start marker (R143). -/
theorem frameSymbol_start (p : List Byte) : frameSymbol p 14 = some .one := by
  simp [frameSymbol]

/-- The payload (R144). -/
theorem frameSymbol_payload (p : List Byte) {k : Nat} (h1 : 15 ≤ k) (h2 : k < 15 + 8 * p.length) :
    frameSymbol p k = payloadSymbol p (k - 15) := by
  simp [frameSymbol, show ¬ k < 14 from by omega, show ¬ k < 15 from by omega, h2]

/-- The terminator (R145). -/
theorem frameSymbol_terminator (p : List Byte) {k : Nat} (h1 : 15 + 8 * p.length ≤ k) (h2 : k < 17 + 8 * p.length) :
    frameSymbol p k = some .zero := by
  simp [frameSymbol, show ¬ k < 14 from by omega, show ¬ k < 15 from by omega,
    show ¬ k < 15 + 8 * p.length from by omega, symbolCount_eq, h2]

/-- Past the frame there is no symbol (R86). -/
theorem frameSymbol_past (p : List Byte) {k : Nat} (h : 17 + 8 * p.length ≤ k) : frameSymbol p k = none := by
  simp [frameSymbol, show ¬ k < 14 from by omega, show ¬ k < 15 from by omega,
    show ¬ k < 15 + 8 * p.length from by omega, symbolCount_eq, h]

/-- There is a symbol exactly at the positions inside the frame (R86). -/
theorem frameSymbol_isSome (p : List Byte) (k : Nat) : (frameSymbol p k).isSome = true ↔ k < symbolCount p.length := by
  rw [symbolCount_eq]
  rcases Nat.lt_or_ge k 14 with h | h
  · simp [frameSymbol_preamble p h]; omega
  rcases Nat.eq_or_lt_of_le h with rfl | h
  · simp [frameSymbol_start]; omega
  rcases Nat.lt_or_ge k (15 + 8 * p.length) with h' | h'
  · obtain ⟨s, hs⟩ := payloadSymbol_some (p := p) (j := k - 15) (by omega)
    simp [frameSymbol_payload p h h', hs]; omega
  rcases Nat.lt_or_ge k (17 + 8 * p.length) with h'' | h''
  · simp [frameSymbol_terminator p h' h'', h'']
  · simp [frameSymbol_past p h'', h'']

/-- A frame has `S` symbols, and the one at index `k` is `sym(P, k)` (R86). -/
theorem frameSymbols_getElem? (p : List Byte) (k : Nat) : (frameSymbols p)[k]? = frameSymbol p k := by
  have hall : ∀ n, n ≤ symbolCount p.length →
      ((List.range n).filterMap (frameSymbol p)).length = n ∧
        ∀ k, k < n → ((List.range n).filterMap (frameSymbol p))[k]? = frameSymbol p k := by
    intro n
    induction n with
    | zero => intro _; simp
    | succ n ih =>
      intro hn
      obtain ⟨hl, hk⟩ := ih (by omega)
      obtain ⟨s, hs⟩ := Option.isSome_iff_exists.mp ((frameSymbol_isSome p n).mpr (by omega))
      have heq : (List.range (n + 1)).filterMap (frameSymbol p) =
          (List.range n).filterMap (frameSymbol p) ++ [s] := by
        simp [List.range_succ, hs]
      rw [heq]
      refine ⟨by simp [hl], fun k hkn => ?_⟩
      by_cases hlt : k < n
      · rw [List.getElem?_append_left (by omega), hk k hlt]
      · have : k = n := by omega
        subst this
        rw [List.getElem?_append_right (by omega), hl, hs]
        simp
  obtain ⟨hl, hk⟩ := hall (symbolCount p.length) (Nat.le_refl _)
  by_cases hlt : k < symbolCount p.length
  · exact hk k hlt
  · have hn : frameSymbol p k = none := by
      have := (frameSymbol_isSome p k).not.mpr hlt
      simpa using this
    rw [hn]
    exact List.getElem?_eq_none (by rw [frameSymbols, hl]; omega)

theorem frameSymbols_length (p : List Byte) : (frameSymbols p).length = symbolCount p.length := by
  apply Nat.le_antisymm
  · by_contra h
    have hk := frameSymbols_getElem? p (symbolCount p.length)
    rw [List.getElem?_eq_getElem (by omega)] at hk
    have := (frameSymbol_isSome p (symbolCount p.length)).mp (by rw [← hk]; rfl)
    omega
  · by_contra h
    have hk := frameSymbols_getElem? p (frameSymbols p).length
    rw [List.getElem?_eq_none (Nat.le_refl _)] at hk
    have := (frameSymbol_isSome p (frameSymbols p).length).mpr (by omega)
    rw [← hk] at this
    simp at this

/-- The levels of a list of symbols, two each. -/
theorem levelsOf_getElem? (l : List Symbol) (k : Nat) :
    (l.flatMap fun s => [firstLevel s, secondLevel s])[2 * k]? = (l[k]?).map firstLevel ∧
      (l.flatMap fun s => [firstLevel s, secondLevel s])[2 * k + 1]? = (l[k]?).map secondLevel := by
  induction l generalizing k with
  | nil => simp
  | cons s rest ih =>
    cases k with
    | zero => simp
    | succ k =>
      obtain ⟨h1, h2⟩ := ih k
      constructor
      · rw [show 2 * (k + 1) = 2 * k + 2 from by omega]
        simpa using h1
      · rw [show 2 * (k + 1) + 1 = 2 * k + 1 + 2 from by omega]
        simpa using h2

/-- Level `2*k` of a frame is the first level of symbol `k` (R86). -/
theorem frameLevels_first (p : List Byte) (k : Nat) :
    (frameLevels p)[2 * k]? = (frameSymbol p k).map firstLevel := by
  rw [frameLevels, (levelsOf_getElem? _ k).1, frameSymbols_getElem?]

/-- Level `2*k + 1` of a frame is the second level of symbol `k` (R86). -/
theorem frameLevels_second (p : List Byte) (k : Nat) :
    (frameLevels p)[2 * k + 1]? = (frameSymbol p k).map secondLevel := by
  rw [frameLevels, (levelsOf_getElem? _ k).2, frameSymbols_getElem?]

/-- A frame has `2*S` levels (R85). -/
theorem frameLevels_length (p : List Byte) : (frameLevels p).length = 2 * symbolCount p.length := by
  have : ∀ l : List Symbol, (l.flatMap fun s => [firstLevel s, secondLevel s]).length = 2 * l.length := by
    intro l
    induction l with
    | nil => rfl
    | cons s rest ih => simp [ih]; omega
  rw [frameLevels, this, frameSymbols_length]

/-- Changing byte `i` changes no symbol of the frame but that byte's eight. -/
theorem frameSymbol_set (p : List Byte) (i k : Nat) (b : Byte) (h : k < 15 + 8 * i) :
    frameSymbol (p.set i b) k = frameSymbol p k := by
  simp only [frameSymbol, headSymbols_eq, preambleZeros_eq, bitsPerByte_eq, List.length_set, payloadSymbol]
  by_cases h1 : k < 15
  · simp [h1]
  · rw [List.getElem?_set_ne (by omega)]
    rfl

end Sys2Proof.Machine
end

