-- ==== Sys2Proof/Laws/State.lean ====
section
/-! SUPPORT. One lemma per field per state update, so that no proof unfolds a record update; and what each update does to
the levels and the clock as read. -/

namespace Sys2Proof.Machine

/-! ### presentBuffer -/

@[simp] theorem presentBuffer_pin (s : State) (buffer : List Byte) : (s.presentBuffer buffer).pin = s.pin := rfl
@[simp] theorem presentBuffer_ltt (s : State) (buffer : List Byte) : (s.presentBuffer buffer).ltt = s.ltt := rfl
@[simp] theorem presentBuffer_mode (s : State) (buffer : List Byte) : (s.presentBuffer buffer).mode = s.mode := rfl
@[simp] theorem presentBuffer_k (s : State) (buffer : List Byte) : (s.presentBuffer buffer).k = s.k := rfl
@[simp] theorem presentBuffer_ph (s : State) (buffer : List Byte) : (s.presentBuffer buffer).ph = s.ph := rfl
@[simp] theorem presentBuffer_nlen (s : State) (buffer : List Byte) : (s.presentBuffer buffer).nlen = s.nlen := rfl
@[simp] theorem presentBuffer_pbuf (s : State) (buffer : List Byte) : (s.presentBuffer buffer).pbuf = s.pbuf := rfl
@[simp] theorem presentBuffer_psrc (s : State) (buffer : List Byte) : (s.presentBuffer buffer).psrc = s.psrc := rfl
@[simp] theorem presentBuffer_level (s : State) (buffer : List Byte) : (s.presentBuffer buffer).level = s.level := rfl
@[simp] theorem presentBuffer_payload (s : State) (buffer : List Byte) : (s.presentBuffer buffer).payload = cellsFrom 0 buffer := rfl
@[simp] theorem presentBuffer_time (s : State) (buffer : List Byte) : (s.presentBuffer buffer).time = s.time := rfl
@[simp] theorem presentBuffer_trace (s : State) (buffer : List Byte) : (s.presentBuffer buffer).trace = s.trace := rfl
@[simp] theorem presentBuffer_commands (s : State) (buffer : List Byte) : (s.presentBuffer buffer).commands = s.commands := rfl
@[simp] theorem presentBuffer_inputs (s : State) (buffer : List Byte) : (s.presentBuffer buffer).inputs = s.inputs := rfl
@[simp] theorem presentBuffer_steps (s : State) (buffer : List Byte) : (s.presentBuffer buffer).steps = s.steps := rfl

/-! ### record -/

@[simp] theorem record_pin (s : State) (e : Event) : (s.record e).pin = s.pin := rfl
@[simp] theorem record_ltt (s : State) (e : Event) : (s.record e).ltt = s.ltt := rfl
@[simp] theorem record_mode (s : State) (e : Event) : (s.record e).mode = s.mode := rfl
@[simp] theorem record_k (s : State) (e : Event) : (s.record e).k = s.k := rfl
@[simp] theorem record_ph (s : State) (e : Event) : (s.record e).ph = s.ph := rfl
@[simp] theorem record_nlen (s : State) (e : Event) : (s.record e).nlen = s.nlen := rfl
@[simp] theorem record_pbuf (s : State) (e : Event) : (s.record e).pbuf = s.pbuf := rfl
@[simp] theorem record_psrc (s : State) (e : Event) : (s.record e).psrc = s.psrc := rfl
@[simp] theorem record_level (s : State) (e : Event) : (s.record e).level = s.level := rfl
@[simp] theorem record_payload (s : State) (e : Event) : (s.record e).payload = s.payload := rfl
@[simp] theorem record_time (s : State) (e : Event) : (s.record e).time = s.time := rfl
@[simp] theorem record_trace (s : State) (e : Event) : (s.record e).trace = s.trace ++ [(s.time, e)] := rfl
@[simp] theorem record_commands (s : State) (e : Event) : (s.record e).commands = s.commands := rfl
@[simp] theorem record_inputs (s : State) (e : Event) : (s.record e).inputs = s.inputs := rfl
@[simp] theorem record_steps (s : State) (e : Event) : (s.record e).steps = s.steps := rfl

/-! ### pinWrite -/

@[simp] theorem pinWrite_pin (s : State) (p : PinId) (lv : Level) : (s.pinWrite p lv).pin = s.pin := rfl
@[simp] theorem pinWrite_ltt (s : State) (p : PinId) (lv : Level) : (s.pinWrite p lv).ltt = s.ltt := rfl
@[simp] theorem pinWrite_mode (s : State) (p : PinId) (lv : Level) : (s.pinWrite p lv).mode = s.mode := rfl
@[simp] theorem pinWrite_k (s : State) (p : PinId) (lv : Level) : (s.pinWrite p lv).k = s.k := rfl
@[simp] theorem pinWrite_ph (s : State) (p : PinId) (lv : Level) : (s.pinWrite p lv).ph = s.ph := rfl
@[simp] theorem pinWrite_nlen (s : State) (p : PinId) (lv : Level) : (s.pinWrite p lv).nlen = s.nlen := rfl
@[simp] theorem pinWrite_pbuf (s : State) (p : PinId) (lv : Level) : (s.pinWrite p lv).pbuf = s.pbuf := rfl
@[simp] theorem pinWrite_psrc (s : State) (p : PinId) (lv : Level) : (s.pinWrite p lv).psrc = s.psrc := rfl
@[simp] theorem pinWrite_level (s : State) (p : PinId) (lv : Level) : (s.pinWrite p lv).level = writeCell s.level p.toNat lv := rfl
@[simp] theorem pinWrite_payload (s : State) (p : PinId) (lv : Level) : (s.pinWrite p lv).payload = s.payload := rfl
@[simp] theorem pinWrite_time (s : State) (p : PinId) (lv : Level) : (s.pinWrite p lv).time = s.time := rfl
@[simp] theorem pinWrite_trace (s : State) (p : PinId) (lv : Level) : (s.pinWrite p lv).trace = s.trace ++ [(s.time, .pinWrite p lv)] := rfl
@[simp] theorem pinWrite_commands (s : State) (p : PinId) (lv : Level) : (s.pinWrite p lv).commands = s.commands := rfl
@[simp] theorem pinWrite_inputs (s : State) (p : PinId) (lv : Level) : (s.pinWrite p lv).inputs = s.inputs := rfl
@[simp] theorem pinWrite_steps (s : State) (p : PinId) (lv : Level) : (s.pinWrite p lv).steps = s.steps := rfl

/-! ### pinMode -/

@[simp] theorem pinMode_pin (s : State) (p : PinId) : (s.pinMode p).pin = s.pin := rfl
@[simp] theorem pinMode_ltt (s : State) (p : PinId) : (s.pinMode p).ltt = s.ltt := rfl
@[simp] theorem pinMode_mode (s : State) (p : PinId) : (s.pinMode p).mode = s.mode := rfl
@[simp] theorem pinMode_k (s : State) (p : PinId) : (s.pinMode p).k = s.k := rfl
@[simp] theorem pinMode_ph (s : State) (p : PinId) : (s.pinMode p).ph = s.ph := rfl
@[simp] theorem pinMode_nlen (s : State) (p : PinId) : (s.pinMode p).nlen = s.nlen := rfl
@[simp] theorem pinMode_pbuf (s : State) (p : PinId) : (s.pinMode p).pbuf = s.pbuf := rfl
@[simp] theorem pinMode_psrc (s : State) (p : PinId) : (s.pinMode p).psrc = s.psrc := rfl
@[simp] theorem pinMode_level (s : State) (p : PinId) : (s.pinMode p).level = s.level := rfl
@[simp] theorem pinMode_payload (s : State) (p : PinId) : (s.pinMode p).payload = s.payload := rfl
@[simp] theorem pinMode_time (s : State) (p : PinId) : (s.pinMode p).time = s.time := rfl
@[simp] theorem pinMode_trace (s : State) (p : PinId) : (s.pinMode p).trace = s.trace ++ [(s.time, .pinMode p)] := rfl
@[simp] theorem pinMode_commands (s : State) (p : PinId) : (s.pinMode p).commands = s.commands := rfl
@[simp] theorem pinMode_inputs (s : State) (p : PinId) : (s.pinMode p).inputs = s.inputs := rfl
@[simp] theorem pinMode_steps (s : State) (p : PinId) : (s.pinMode p).steps = s.steps := rfl

/-! ### readClock -/

@[simp] theorem readClock_pin (s : State) : (s.readClock).pin = s.pin := rfl
@[simp] theorem readClock_ltt (s : State) : (s.readClock).ltt = s.ltt := rfl
@[simp] theorem readClock_mode (s : State) : (s.readClock).mode = s.mode := rfl
@[simp] theorem readClock_k (s : State) : (s.readClock).k = s.k := rfl
@[simp] theorem readClock_ph (s : State) : (s.readClock).ph = s.ph := rfl
@[simp] theorem readClock_nlen (s : State) : (s.readClock).nlen = s.nlen := rfl
@[simp] theorem readClock_pbuf (s : State) : (s.readClock).pbuf = s.pbuf := rfl
@[simp] theorem readClock_psrc (s : State) : (s.readClock).psrc = s.psrc := rfl
@[simp] theorem readClock_level (s : State) : (s.readClock).level = s.level := rfl
@[simp] theorem readClock_payload (s : State) : (s.readClock).payload = s.payload := rfl
@[simp] theorem readClock_time (s : State) : (s.readClock).time = s.time := rfl
@[simp] theorem readClock_trace (s : State) : (s.readClock).trace = s.trace ++ [(s.time, .clockRead s.now)] := rfl
@[simp] theorem readClock_commands (s : State) : (s.readClock).commands = s.commands := rfl
@[simp] theorem readClock_inputs (s : State) : (s.readClock).inputs = s.inputs := rfl
@[simp] theorem readClock_steps (s : State) : (s.readClock).steps = s.steps := rfl

/-! ### stamp -/

@[simp] theorem stamp_pin (s : State) : (s.stamp).pin = s.pin := rfl
@[simp] theorem stamp_ltt (s : State) : (s.stamp).ltt = s.now := rfl
@[simp] theorem stamp_mode (s : State) : (s.stamp).mode = s.mode := rfl
@[simp] theorem stamp_k (s : State) : (s.stamp).k = s.k := rfl
@[simp] theorem stamp_ph (s : State) : (s.stamp).ph = s.ph := rfl
@[simp] theorem stamp_nlen (s : State) : (s.stamp).nlen = s.nlen := rfl
@[simp] theorem stamp_pbuf (s : State) : (s.stamp).pbuf = s.pbuf := rfl
@[simp] theorem stamp_psrc (s : State) : (s.stamp).psrc = s.psrc := rfl
@[simp] theorem stamp_level (s : State) : (s.stamp).level = s.level := rfl
@[simp] theorem stamp_payload (s : State) : (s.stamp).payload = s.payload := rfl
@[simp] theorem stamp_time (s : State) : (s.stamp).time = s.time := rfl
@[simp] theorem stamp_trace (s : State) : (s.stamp).trace = s.trace ++ [(s.time, .clockRead s.now)] := rfl
@[simp] theorem stamp_commands (s : State) : (s.stamp).commands = s.commands := rfl
@[simp] theorem stamp_inputs (s : State) : (s.stamp).inputs = s.inputs := rfl
@[simp] theorem stamp_steps (s : State) : (s.stamp).steps = s.steps := rfl

/-! ### goPhase -/

@[simp] theorem goPhase_pin (s : State) (ph : Phase) : (s.goPhase ph).pin = s.pin := rfl
@[simp] theorem goPhase_ltt (s : State) (ph : Phase) : (s.goPhase ph).ltt = s.ltt := rfl
@[simp] theorem goPhase_mode (s : State) (ph : Phase) : (s.goPhase ph).mode = s.mode := rfl
@[simp] theorem goPhase_k (s : State) (ph : Phase) : (s.goPhase ph).k = s.k := rfl
@[simp] theorem goPhase_ph (s : State) (ph : Phase) : (s.goPhase ph).ph = ph := rfl
@[simp] theorem goPhase_nlen (s : State) (ph : Phase) : (s.goPhase ph).nlen = s.nlen := rfl
@[simp] theorem goPhase_pbuf (s : State) (ph : Phase) : (s.goPhase ph).pbuf = s.pbuf := rfl
@[simp] theorem goPhase_psrc (s : State) (ph : Phase) : (s.goPhase ph).psrc = s.psrc := rfl
@[simp] theorem goPhase_level (s : State) (ph : Phase) : (s.goPhase ph).level = s.level := rfl
@[simp] theorem goPhase_payload (s : State) (ph : Phase) : (s.goPhase ph).payload = s.payload := rfl
@[simp] theorem goPhase_time (s : State) (ph : Phase) : (s.goPhase ph).time = s.time := rfl
@[simp] theorem goPhase_trace (s : State) (ph : Phase) : (s.goPhase ph).trace = s.trace := rfl
@[simp] theorem goPhase_commands (s : State) (ph : Phase) : (s.goPhase ph).commands = s.commands := rfl
@[simp] theorem goPhase_inputs (s : State) (ph : Phase) : (s.goPhase ph).inputs = s.inputs := rfl
@[simp] theorem goPhase_steps (s : State) (ph : Phase) : (s.goPhase ph).steps = s.steps := rfl

/-! ### poll -/

@[simp] theorem poll_pin (s : State) (next : Phase) : (s.poll next).pin = s.pin := rfl
@[simp] theorem poll_ltt (s : State) (next : Phase) : (s.poll next).ltt = s.ltt := rfl
@[simp] theorem poll_mode (s : State) (next : Phase) : (s.poll next).mode = s.mode := rfl
@[simp] theorem poll_k (s : State) (next : Phase) : (s.poll next).k = s.k := rfl
@[simp] theorem poll_ph (s : State) (next : Phase) : (s.poll next).ph = if waitOver s.now s.ltt then next else s.ph := rfl
@[simp] theorem poll_nlen (s : State) (next : Phase) : (s.poll next).nlen = s.nlen := rfl
@[simp] theorem poll_pbuf (s : State) (next : Phase) : (s.poll next).pbuf = s.pbuf := rfl
@[simp] theorem poll_psrc (s : State) (next : Phase) : (s.poll next).psrc = s.psrc := rfl
@[simp] theorem poll_level (s : State) (next : Phase) : (s.poll next).level = s.level := rfl
@[simp] theorem poll_payload (s : State) (next : Phase) : (s.poll next).payload = s.payload := rfl
@[simp] theorem poll_time (s : State) (next : Phase) : (s.poll next).time = s.time := rfl
@[simp] theorem poll_trace (s : State) (next : Phase) : (s.poll next).trace = s.trace ++ [(s.time, .clockRead s.now)] := rfl
@[simp] theorem poll_commands (s : State) (next : Phase) : (s.poll next).commands = s.commands := rfl
@[simp] theorem poll_inputs (s : State) (next : Phase) : (s.poll next).inputs = s.inputs := rfl
@[simp] theorem poll_steps (s : State) (next : Phase) : (s.poll next).steps = s.steps := rfl

/-! ### beginFrame -/

@[simp] theorem beginFrame_pin (s : State) (p : List Byte) (src : PayloadSource) : (s.beginFrame p src).pin = s.pin := rfl
@[simp] theorem beginFrame_ltt (s : State) (p : List Byte) (src : PayloadSource) : (s.beginFrame p src).ltt = frameStartRef s.now := rfl
@[simp] theorem beginFrame_mode (s : State) (p : List Byte) (src : PayloadSource) : (s.beginFrame p src).mode = .busy := rfl
@[simp] theorem beginFrame_k (s : State) (p : List Byte) (src : PayloadSource) : (s.beginFrame p src).k = 0 := rfl
@[simp] theorem beginFrame_ph (s : State) (p : List Byte) (src : PayloadSource) : (s.beginFrame p src).ph = .waitA := rfl
@[simp] theorem beginFrame_nlen (s : State) (p : List Byte) (src : PayloadSource) : (s.beginFrame p src).nlen = p.length := rfl
@[simp] theorem beginFrame_pbuf (s : State) (p : List Byte) (src : PayloadSource) : (s.beginFrame p src).pbuf = p := rfl
@[simp] theorem beginFrame_psrc (s : State) (p : List Byte) (src : PayloadSource) : (s.beginFrame p src).psrc = src := rfl
@[simp] theorem beginFrame_level (s : State) (p : List Byte) (src : PayloadSource) : (s.beginFrame p src).level = s.level := rfl
@[simp] theorem beginFrame_payload (s : State) (p : List Byte) (src : PayloadSource) : (s.beginFrame p src).payload = s.payload := rfl
@[simp] theorem beginFrame_time (s : State) (p : List Byte) (src : PayloadSource) : (s.beginFrame p src).time = s.time := rfl
@[simp] theorem beginFrame_trace (s : State) (p : List Byte) (src : PayloadSource) : (s.beginFrame p src).trace = s.trace ++ [(s.time, .accept p)] ++ [(s.time, .clockRead s.now)] := rfl
@[simp] theorem beginFrame_commands (s : State) (p : List Byte) (src : PayloadSource) : (s.beginFrame p src).commands = s.commands := rfl
@[simp] theorem beginFrame_inputs (s : State) (p : List Byte) (src : PayloadSource) : (s.beginFrame p src).inputs = s.inputs := rfl
@[simp] theorem beginFrame_steps (s : State) (p : List Byte) (src : PayloadSource) : (s.beginFrame p src).steps = s.steps := rfl

/-! ### endFrame -/

@[simp] theorem endFrame_pin (s : State) : (s.endFrame).pin = s.pin := rfl
@[simp] theorem endFrame_ltt (s : State) : (s.endFrame).ltt = s.ltt := rfl
@[simp] theorem endFrame_mode (s : State) : (s.endFrame).mode = .idle := rfl
@[simp] theorem endFrame_k (s : State) : (s.endFrame).k = s.k := rfl
@[simp] theorem endFrame_ph (s : State) : (s.endFrame).ph = s.ph := rfl
@[simp] theorem endFrame_nlen (s : State) : (s.endFrame).nlen = s.nlen := rfl
@[simp] theorem endFrame_pbuf (s : State) : (s.endFrame).pbuf = s.pbuf := rfl
@[simp] theorem endFrame_psrc (s : State) : (s.endFrame).psrc = s.psrc := rfl
@[simp] theorem endFrame_level (s : State) : (s.endFrame).level = s.level := rfl
@[simp] theorem endFrame_payload (s : State) : (s.endFrame).payload = s.payload := rfl
@[simp] theorem endFrame_time (s : State) : (s.endFrame).time = s.time := rfl
@[simp] theorem endFrame_trace (s : State) : (s.endFrame).trace = s.trace ++ [(s.time, .done)] := rfl
@[simp] theorem endFrame_commands (s : State) : (s.endFrame).commands = s.commands := rfl
@[simp] theorem endFrame_inputs (s : State) : (s.endFrame).inputs = s.inputs := rfl
@[simp] theorem endFrame_steps (s : State) : (s.endFrame).steps = s.steps := rfl

/-! ### resetBlock -/

@[simp] theorem resetBlock_pin (s : State) : (s.resetBlock).pin = Config.defaultPin := rfl
@[simp] theorem resetBlock_ltt (s : State) : (s.resetBlock).ltt = 0 := rfl
@[simp] theorem resetBlock_mode (s : State) : (s.resetBlock).mode = .idle := rfl
@[simp] theorem resetBlock_k (s : State) : (s.resetBlock).k = 0 := rfl
@[simp] theorem resetBlock_ph (s : State) : (s.resetBlock).ph = .waitA := rfl
@[simp] theorem resetBlock_nlen (s : State) : (s.resetBlock).nlen = 0 := rfl
@[simp] theorem resetBlock_pbuf (s : State) : (s.resetBlock).pbuf = [] := rfl
@[simp] theorem resetBlock_psrc (s : State) : (s.resetBlock).psrc = .operand := rfl
@[simp] theorem resetBlock_level (s : State) : (s.resetBlock).level = s.level := rfl
@[simp] theorem resetBlock_payload (s : State) : (s.resetBlock).payload = s.payload := rfl
@[simp] theorem resetBlock_time (s : State) : (s.resetBlock).time = s.time := rfl
@[simp] theorem resetBlock_trace (s : State) : (s.resetBlock).trace = s.trace := rfl
@[simp] theorem resetBlock_commands (s : State) : (s.resetBlock).commands = s.commands := rfl
@[simp] theorem resetBlock_inputs (s : State) : (s.resetBlock).inputs = s.inputs := rfl
@[simp] theorem resetBlock_steps (s : State) : (s.resetBlock).steps = s.steps := rfl

/-! ### takeInput -/

@[simp] theorem takeInput_pin (s : State) : (s.takeInput).pin = s.pin := rfl
@[simp] theorem takeInput_ltt (s : State) : (s.takeInput).ltt = s.ltt := rfl
@[simp] theorem takeInput_mode (s : State) : (s.takeInput).mode = s.mode := rfl
@[simp] theorem takeInput_k (s : State) : (s.takeInput).k = s.k := rfl
@[simp] theorem takeInput_ph (s : State) : (s.takeInput).ph = s.ph := rfl
@[simp] theorem takeInput_nlen (s : State) : (s.takeInput).nlen = s.nlen := rfl
@[simp] theorem takeInput_pbuf (s : State) : (s.takeInput).pbuf = s.pbuf := rfl
@[simp] theorem takeInput_psrc (s : State) : (s.takeInput).psrc = s.psrc := rfl
@[simp] theorem takeInput_level (s : State) : (s.takeInput).level = s.level := rfl
@[simp] theorem takeInput_payload (s : State) : (s.takeInput).payload = s.payload := rfl
@[simp] theorem takeInput_time (s : State) : (s.takeInput).time = s.time := rfl
@[simp] theorem takeInput_trace (s : State) : (s.takeInput).trace = s.trace := rfl
@[simp] theorem takeInput_commands (s : State) : (s.takeInput).commands = s.commands := rfl
@[simp] theorem takeInput_inputs (s : State) : (s.takeInput).inputs = s.inputs.tail := rfl
@[simp] theorem takeInput_steps (s : State) : (s.takeInput).steps = s.steps := rfl

/-! ### dropCommand -/

@[simp] theorem dropCommand_pin (s : State) : s.dropCommand.pin = s.pin := rfl
@[simp] theorem dropCommand_ltt (s : State) : s.dropCommand.ltt = s.ltt := rfl
@[simp] theorem dropCommand_mode (s : State) : s.dropCommand.mode = s.mode := rfl
@[simp] theorem dropCommand_k (s : State) : s.dropCommand.k = s.k := rfl
@[simp] theorem dropCommand_ph (s : State) : s.dropCommand.ph = s.ph := rfl
@[simp] theorem dropCommand_nlen (s : State) : s.dropCommand.nlen = s.nlen := rfl
@[simp] theorem dropCommand_pbuf (s : State) : s.dropCommand.pbuf = s.pbuf := rfl
@[simp] theorem dropCommand_psrc (s : State) : s.dropCommand.psrc = s.psrc := rfl
@[simp] theorem dropCommand_level (s : State) : s.dropCommand.level = s.level := rfl
@[simp] theorem dropCommand_payload (s : State) : s.dropCommand.payload = s.payload := rfl
@[simp] theorem dropCommand_time (s : State) : s.dropCommand.time = s.time := rfl
@[simp] theorem dropCommand_trace (s : State) : s.dropCommand.trace = s.trace := rfl
@[simp] theorem dropCommand_commands (s : State) : s.dropCommand.commands = s.commands.tail := rfl
@[simp] theorem dropCommand_inputs (s : State) : s.dropCommand.inputs = s.inputs := rfl
@[simp] theorem dropCommand_steps (s : State) : s.dropCommand.steps = s.steps := rfl
@[simp] theorem dropCommand_now (s : State) : s.dropCommand.now = s.now := rfl

/-! ### hostStore -/

@[simp] theorem hostStore_pin (s : State) (i : Nat) (b : Byte) : (s.hostStore i b).pin = s.pin := rfl
@[simp] theorem hostStore_ltt (s : State) (i : Nat) (b : Byte) : (s.hostStore i b).ltt = s.ltt := rfl
@[simp] theorem hostStore_mode (s : State) (i : Nat) (b : Byte) : (s.hostStore i b).mode = s.mode := rfl
@[simp] theorem hostStore_k (s : State) (i : Nat) (b : Byte) : (s.hostStore i b).k = s.k := rfl
@[simp] theorem hostStore_ph (s : State) (i : Nat) (b : Byte) : (s.hostStore i b).ph = s.ph := rfl
@[simp] theorem hostStore_nlen (s : State) (i : Nat) (b : Byte) : (s.hostStore i b).nlen = s.nlen := rfl
@[simp] theorem hostStore_psrc (s : State) (i : Nat) (b : Byte) : (s.hostStore i b).psrc = s.psrc := rfl
@[simp] theorem hostStore_level (s : State) (i : Nat) (b : Byte) : (s.hostStore i b).level = s.level := rfl
@[simp] theorem hostStore_payload (s : State) (i : Nat) (b : Byte) : (s.hostStore i b).payload = writeCell s.payload i b := rfl
@[simp] theorem hostStore_time (s : State) (i : Nat) (b : Byte) : (s.hostStore i b).time = s.time := rfl
@[simp] theorem hostStore_trace (s : State) (i : Nat) (b : Byte) : (s.hostStore i b).trace = s.trace := rfl
@[simp] theorem hostStore_commands (s : State) (i : Nat) (b : Byte) : (s.hostStore i b).commands = s.commands := rfl
@[simp] theorem hostStore_inputs (s : State) (i : Nat) (b : Byte) : (s.hostStore i b).inputs = s.inputs := rfl
@[simp] theorem hostStore_steps (s : State) (i : Nat) (b : Byte) : (s.hostStore i b).steps = s.steps := rfl

/-! ### elapse -/

@[simp] theorem elapse_pin (s : State) (d : Nat) : (s.elapse d).pin = s.pin := rfl
@[simp] theorem elapse_ltt (s : State) (d : Nat) : (s.elapse d).ltt = s.ltt := rfl
@[simp] theorem elapse_mode (s : State) (d : Nat) : (s.elapse d).mode = s.mode := rfl
@[simp] theorem elapse_k (s : State) (d : Nat) : (s.elapse d).k = s.k := rfl
@[simp] theorem elapse_ph (s : State) (d : Nat) : (s.elapse d).ph = s.ph := rfl
@[simp] theorem elapse_nlen (s : State) (d : Nat) : (s.elapse d).nlen = s.nlen := rfl
@[simp] theorem elapse_pbuf (s : State) (d : Nat) : (s.elapse d).pbuf = s.pbuf := rfl
@[simp] theorem elapse_psrc (s : State) (d : Nat) : (s.elapse d).psrc = s.psrc := rfl
@[simp] theorem elapse_level (s : State) (d : Nat) : (s.elapse d).level = s.level := rfl
@[simp] theorem elapse_payload (s : State) (d : Nat) : (s.elapse d).payload = s.payload := rfl
@[simp] theorem elapse_time (s : State) (d : Nat) : (s.elapse d).time = s.time + d := rfl
@[simp] theorem elapse_trace (s : State) (d : Nat) : (s.elapse d).trace = s.trace := rfl
@[simp] theorem elapse_commands (s : State) (d : Nat) : (s.elapse d).commands = s.commands := rfl
@[simp] theorem elapse_inputs (s : State) (d : Nat) : (s.elapse d).inputs = s.inputs := rfl
@[simp] theorem elapse_steps (s : State) (d : Nat) : (s.elapse d).steps = s.steps + 1 := rfl

/-! ### advanceSymbol -/

@[simp] theorem advanceSymbol_pin (s : State) : s.advanceSymbol.pin = s.pin := rfl
@[simp] theorem advanceSymbol_ltt (s : State) : s.advanceSymbol.ltt = s.ltt := rfl
@[simp] theorem advanceSymbol_mode (s : State) : s.advanceSymbol.mode = s.mode := rfl
@[simp] theorem advanceSymbol_k (s : State) : s.advanceSymbol.k = s.k + 1 := rfl
@[simp] theorem advanceSymbol_ph (s : State) : s.advanceSymbol.ph = .waitA := rfl
@[simp] theorem advanceSymbol_nlen (s : State) : s.advanceSymbol.nlen = s.nlen := rfl
@[simp] theorem advanceSymbol_pbuf (s : State) : s.advanceSymbol.pbuf = s.pbuf := rfl
@[simp] theorem advanceSymbol_psrc (s : State) : s.advanceSymbol.psrc = s.psrc := rfl
@[simp] theorem advanceSymbol_level (s : State) : s.advanceSymbol.level = s.level := rfl
@[simp] theorem advanceSymbol_payload (s : State) : s.advanceSymbol.payload = s.payload := rfl
@[simp] theorem advanceSymbol_time (s : State) : s.advanceSymbol.time = s.time := rfl
@[simp] theorem advanceSymbol_trace (s : State) : s.advanceSymbol.trace = s.trace := rfl
@[simp] theorem advanceSymbol_commands (s : State) : s.advanceSymbol.commands = s.commands := rfl
@[simp] theorem advanceSymbol_inputs (s : State) : s.advanceSymbol.inputs = s.inputs := rfl
@[simp] theorem advanceSymbol_steps (s : State) : s.advanceSymbol.steps = s.steps := rfl
@[simp] theorem advanceSymbol_now (s : State) : s.advanceSymbol.now = s.now := rfl

/-! ### nextSymbol -/

@[simp] theorem nextSymbol_pin (s : State) : s.nextSymbol.pin = s.pin := by
  unfold State.nextSymbol; split <;> rfl

@[simp] theorem nextSymbol_ltt (s : State) : s.nextSymbol.ltt = s.ltt := by
  unfold State.nextSymbol; split <;> rfl

@[simp] theorem nextSymbol_nlen (s : State) : s.nextSymbol.nlen = s.nlen := by
  unfold State.nextSymbol; split <;> rfl

@[simp] theorem nextSymbol_pbuf (s : State) : s.nextSymbol.pbuf = s.pbuf := by
  unfold State.nextSymbol; split <;> rfl

@[simp] theorem nextSymbol_psrc (s : State) : s.nextSymbol.psrc = s.psrc := by
  unfold State.nextSymbol; split <;> rfl

@[simp] theorem nextSymbol_level (s : State) : s.nextSymbol.level = s.level := by
  unfold State.nextSymbol; split <;> rfl

@[simp] theorem nextSymbol_payload (s : State) : s.nextSymbol.payload = s.payload := by
  unfold State.nextSymbol; split <;> rfl

@[simp] theorem nextSymbol_time (s : State) : s.nextSymbol.time = s.time := by
  unfold State.nextSymbol; split <;> rfl

@[simp] theorem nextSymbol_commands (s : State) : s.nextSymbol.commands = s.commands := by
  unfold State.nextSymbol; split <;> rfl

@[simp] theorem nextSymbol_inputs (s : State) : s.nextSymbol.inputs = s.inputs := by
  unfold State.nextSymbol; split <;> rfl

@[simp] theorem nextSymbol_steps (s : State) : s.nextSymbol.steps = s.steps := by
  unfold State.nextSymbol; split <;> rfl

/-! ### applyStore -/

@[simp] theorem applyStore_pin (s : State) (st : Option (Nat × Byte)) : (s.applyStore st).pin = s.pin := by
  cases st <;> rfl

@[simp] theorem applyStore_ltt (s : State) (st : Option (Nat × Byte)) : (s.applyStore st).ltt = s.ltt := by
  cases st <;> rfl

@[simp] theorem applyStore_mode (s : State) (st : Option (Nat × Byte)) : (s.applyStore st).mode = s.mode := by
  cases st <;> rfl

@[simp] theorem applyStore_k (s : State) (st : Option (Nat × Byte)) : (s.applyStore st).k = s.k := by
  cases st <;> rfl

@[simp] theorem applyStore_ph (s : State) (st : Option (Nat × Byte)) : (s.applyStore st).ph = s.ph := by
  cases st <;> rfl

@[simp] theorem applyStore_nlen (s : State) (st : Option (Nat × Byte)) : (s.applyStore st).nlen = s.nlen := by
  cases st <;> rfl

@[simp] theorem applyStore_psrc (s : State) (st : Option (Nat × Byte)) : (s.applyStore st).psrc = s.psrc := by
  cases st <;> rfl

@[simp] theorem applyStore_level (s : State) (st : Option (Nat × Byte)) : (s.applyStore st).level = s.level := by
  cases st <;> rfl

@[simp] theorem applyStore_time (s : State) (st : Option (Nat × Byte)) : (s.applyStore st).time = s.time := by
  cases st <;> rfl

@[simp] theorem applyStore_trace (s : State) (st : Option (Nat × Byte)) : (s.applyStore st).trace = s.trace := by
  cases st <;> rfl

@[simp] theorem applyStore_commands (s : State) (st : Option (Nat × Byte)) : (s.applyStore st).commands = s.commands := by
  cases st <;> rfl

@[simp] theorem applyStore_inputs (s : State) (st : Option (Nat × Byte)) : (s.applyStore st).inputs = s.inputs := by
  cases st <;> rfl

@[simp] theorem applyStore_steps (s : State) (st : Option (Nat × Byte)) : (s.applyStore st).steps = s.steps := by
  cases st <;> rfl

/-! ### the clock as read -/

@[simp] theorem presentBuffer_now (s : State) (buffer : List Byte) : (s.presentBuffer buffer).now = s.now := rfl
@[simp] theorem record_now (s : State) (e : Event) : (s.record e).now = s.now := rfl
@[simp] theorem pinWrite_now (s : State) (p : PinId) (lv : Level) : (s.pinWrite p lv).now = s.now := rfl
@[simp] theorem pinMode_now (s : State) (p : PinId) : (s.pinMode p).now = s.now := rfl
@[simp] theorem readClock_now (s : State) : (s.readClock).now = s.now := rfl
@[simp] theorem stamp_now (s : State) : (s.stamp).now = s.now := rfl
@[simp] theorem goPhase_now (s : State) (ph : Phase) : (s.goPhase ph).now = s.now := rfl
@[simp] theorem poll_now (s : State) (next : Phase) : (s.poll next).now = s.now := rfl
@[simp] theorem beginFrame_now (s : State) (p : List Byte) (src : PayloadSource) : (s.beginFrame p src).now = s.now := rfl
@[simp] theorem endFrame_now (s : State) : (s.endFrame).now = s.now := rfl
@[simp] theorem resetBlock_now (s : State) : (s.resetBlock).now = s.now := rfl
@[simp] theorem takeInput_now (s : State) : (s.takeInput).now = s.now := rfl
@[simp] theorem hostStore_now (s : State) (i : Nat) (b : Byte) : (s.hostStore i b).now = s.now := rfl

@[simp] theorem elapse_now (s : State) (d : Nat) : (s.elapse d).now = BitVec.ofNat 32 (s.time + d) := rfl
@[simp] theorem nextSymbol_now (s : State) : s.nextSymbol.now = s.now := by simp [State.now]
@[simp] theorem applyStore_now (s : State) (st : Option (Nat × Byte)) : (s.applyStore st).now = s.now := by
  simp [State.now]

/-- A host store outside a running frame leaves `PBUF` alone. -/
theorem hostStore_pbuf_idle (s : State) (i : Nat) (b : Byte) (h : s.mode = .idle) : (s.hostStore i b).pbuf = s.pbuf := by
  simp [State.hostStore, h]

/-- A host store leaves `PBUF` as it is, or changes one byte of it that is not sent yet. -/
theorem hostStore_pbuf_cases (s : State) (i : Nat) (b : Byte) :
    (s.hostStore i b).pbuf = s.pbuf ∨
      (s.mode = .busy ∧ s.psrc = .hostBuffer ∧ s.byteUnsent i = true ∧ (s.hostStore i b).pbuf = s.pbuf.set i b) := by
  by_cases h : s.mode = .busy ∧ s.psrc = .hostBuffer ∧ s.byteUnsent i = true ∧ Config.raceTakesNew s.steps = true
  · exact .inr ⟨h.1, h.2.1, h.2.2.1, by simp [State.hostStore, h]⟩
  · exact .inl (by simp only [State.hostStore, if_neg h])

@[simp] theorem hostStore_pbuf_length (s : State) (i : Nat) (b : Byte) : (s.hostStore i b).pbuf.length = s.pbuf.length := by
  rcases hostStore_pbuf_cases s i b with h | ⟨_, _, _, h⟩ <;> simp [h]

@[simp] theorem applyStore_pbuf_length (s : State) (st : Option (Nat × Byte)) :
    (s.applyStore st).pbuf.length = s.pbuf.length := by
  cases st with
  | none => rfl
  | some ib => exact hostStore_pbuf_length s ib.1 ib.2

end Sys2Proof.Machine
end

