-- ==== Sys2Proof/Laws/Exec.lean ====
section
/-! SUPPORT. What exec and step can do, said once: inversion lemmas the proofs cite instead of unfolding them. -/

namespace Sys2Proof.Machine

/-- A command gives a next state only from IDLE, and then the one its meaning names. -/
theorem whenIdle_next {s t u : State} : s.whenIdle t = .next u ↔ s.mode = .idle ∧ u = t := by
  unfold State.whenIdle
  cases s.mode <;> simp [eq_comm]

/-- A micro-step gives a next state only from BUSY, and then the one its meaning names. -/
theorem whenBusy_next {s t u : State} : s.whenBusy t = .next u ↔ s.mode = .busy ∧ u = t := by
  unfold State.whenBusy
  cases s.mode <;> simp [eq_comm]

/-- After the second stamp: the frame ends after its last symbol, else the next symbol starts (R147). -/
theorem nextSymbol_cases (s : State) :
    (s.k + 1 = symbolCount s.nlen ∧ s.nextSymbol = s.endFrame) ∨
      (s.k + 1 ≠ symbolCount s.nlen ∧ s.nextSymbol = s.advanceSymbol) := by
  by_cases h : s.k + 1 = symbolCount s.nlen
  · exact .inl ⟨h, if_pos h⟩
  · exact .inr ⟨h, if_neg h⟩

theorem microStep_waitA {s : State} (sym : Symbol) (h : s.ph = .waitA) : s.microStep sym = s.poll .writeA := by
  simp [State.microStep, h]

theorem microStep_writeA {s : State} (sym : Symbol) (h : s.ph = .writeA) :
    s.microStep sym = (s.pinWrite s.pin (firstLevel sym)).goPhase .stampA := by
  simp [State.microStep, h]

theorem microStep_stampA {s : State} (sym : Symbol) (h : s.ph = .stampA) : s.microStep sym = s.stamp.goPhase .waitB := by
  simp [State.microStep, h]

theorem microStep_waitB {s : State} (sym : Symbol) (h : s.ph = .waitB) : s.microStep sym = s.poll .writeB := by
  simp [State.microStep, h]

theorem microStep_writeB {s : State} (sym : Symbol) (h : s.ph = .writeB) :
    s.microStep sym = (s.pinWrite s.pin (secondLevel sym)).goPhase .stampB := by
  simp [State.microStep, h]

theorem microStep_stampB {s : State} (sym : Symbol) (h : s.ph = .stampB) : s.microStep sym = s.stamp.nextSymbol := by
  simp [State.microStep, h]

/-- Everything exec can answer with a next state, by instruction. -/
theorem exec_next {i : Instr} {s u : State} (h : exec i s = .next u) :
    (∃ p, i = .setTransmitPin p ∧ s.mode = .idle ∧ u = { s with pin := p }.pinMode p) ∨
    (∃ v, i = .transmitU16 v ∧ s.mode = .idle ∧ u = s.beginFrame (splitU16 v) .operand) ∨
    (∃ n, i = .transmitFrame n ∧ s.mode = .idle ∧ u = s.beginFrame (s.capturePayload n) .hostBuffer) ∨
    (∃ sym, i = decodeSymbol (symbolCode sym) ∧ s.mode = .busy ∧ u = s.microStep sym) := by
  cases i with
  | setTransmitPin p => obtain ⟨hm, rfl⟩ := whenIdle_next.mp h; exact .inl ⟨p, rfl, hm, rfl⟩
  | transmitU16 v => obtain ⟨hm, rfl⟩ := whenIdle_next.mp h; exact .inr (.inl ⟨v, rfl, hm, rfl⟩)
  | transmitFrame n => obtain ⟨hm, rfl⟩ := whenIdle_next.mp h; exact .inr (.inr (.inl ⟨n, rfl, hm, rfl⟩))
  | reservedCmd3 a => cases h
  | sendSymbolZero => obtain ⟨hm, rfl⟩ := whenBusy_next.mp h; exact .inr (.inr (.inr ⟨.zero, rfl, hm, rfl⟩))
  | sendSymbolOne => obtain ⟨hm, rfl⟩ := whenBusy_next.mp h; exact .inr (.inr (.inr ⟨.one, rfl, hm, rfl⟩))

/-- The symbol operation of a symbol's code runs the micro-step for that symbol. -/
theorem exec_symbol {s : State} (sym : Symbol) (h : s.mode = .busy) :
    exec (decodeSymbol (symbolCode sym)) s = .next (s.microStep sym) := by
  cases sym <;> exact whenBusy_next.mpr ⟨h, rfl⟩

/-- Time passes after a next state and after nothing else. -/
theorem elapseAfter_next {d : Nat} {o : Host.Outcome State Fault Refusal} {u : State} :
    elapseAfter d o = .next u ↔ ∃ t, o = .next t ∧ u = t.elapse d := by
  cases o <;> simp [elapseAfter, eq_comm]

/-- The state the block's own step starts from: the step's input taken, its host store made. -/
def State.afterInput (s : State) : State := s.takeInput.applyStore s.nextInput.store

@[simp] theorem afterInput_mode (s : State) : s.afterInput.mode = s.mode := by simp [State.afterInput]
@[simp] theorem afterInput_pin (s : State) : s.afterInput.pin = s.pin := by simp [State.afterInput]
@[simp] theorem afterInput_ltt (s : State) : s.afterInput.ltt = s.ltt := by simp [State.afterInput]
@[simp] theorem afterInput_k (s : State) : s.afterInput.k = s.k := by simp [State.afterInput]
@[simp] theorem afterInput_ph (s : State) : s.afterInput.ph = s.ph := by simp [State.afterInput]
@[simp] theorem afterInput_nlen (s : State) : s.afterInput.nlen = s.nlen := by simp [State.afterInput]
@[simp] theorem afterInput_psrc (s : State) : s.afterInput.psrc = s.psrc := by simp [State.afterInput]
@[simp] theorem afterInput_level (s : State) : s.afterInput.level = s.level := by simp [State.afterInput]
@[simp] theorem afterInput_time (s : State) : s.afterInput.time = s.time := by simp [State.afterInput]
@[simp] theorem afterInput_trace (s : State) : s.afterInput.trace = s.trace := by simp [State.afterInput]
@[simp] theorem afterInput_commands (s : State) : s.afterInput.commands = s.commands := by simp [State.afterInput]
@[simp] theorem afterInput_inputs (s : State) : s.afterInput.inputs = s.inputs.tail := by simp [State.afterInput]
@[simp] theorem afterInput_steps (s : State) : s.afterInput.steps = s.steps := by simp [State.afterInput]
@[simp] theorem afterInput_now (s : State) : s.afterInput.now = s.now := by simp [State.now]

/-- The input of a step changes `PBUF` at most at one byte that is not sent yet, and only while a frame of the host's
buffer is sent (R59, R214). -/
theorem afterInput_pbuf_cases (s : State) :
    s.afterInput.pbuf = s.pbuf ∨
      ∃ i b, s.mode = .busy ∧ s.psrc = .hostBuffer ∧ s.byteUnsent i = true ∧ s.afterInput.pbuf = s.pbuf.set i b := by
  unfold State.afterInput
  cases hst : s.nextInput.store with
  | none => exact .inl rfl
  | some ib =>
    rcases hostStore_pbuf_cases s.takeInput ib.1 ib.2 with h | ⟨h1, h2, h3, h4⟩
    · exact .inl h
    · exact .inr ⟨ib.1, ib.2, h1, h2, h3, h4⟩

@[simp] theorem afterInput_pbuf_length (s : State) : s.afterInput.pbuf.length = s.pbuf.length := by
  simp [State.afterInput, State.takeInput]

/-- An idle block with no command does nothing. -/
theorem blockStep_idle {s : State} (hm : s.mode = .idle) (hc : s.commands = []) : s.blockStep = .next s := by
  simp [State.blockStep, State.fetch, hm, hc]

/-- An idle block runs the host's next command, its buffer presented. -/
theorem blockStep_command {s : State} {c : Command} {rest : List Command} (hm : s.mode = .idle)
    (hc : s.commands = c :: rest) :
    s.blockStep = exec (decodeCommand c.word) (s.dropCommand.presentBuffer c.buffer) := by
  cases s; cases hm; cases hc; rfl

/-- A busy block runs the symbol at its position. -/
theorem blockStep_symbol {s : State} {sym : Symbol} (hm : s.mode = .busy) (hs : frameSymbol s.pbuf s.k = some sym) :
    s.blockStep = exec (decodeSymbol (symbolCode sym)) s := by
  simp [State.blockStep, State.fetch, hm, hs, decode]

/-- A busy block past its frame is refused by name. -/
theorem blockStep_past {s : State} (hm : s.mode = .busy) (hs : frameSymbol s.pbuf s.k = none) :
    s.blockStep = .refused .positionPastFrame := by
  simp [State.blockStep, State.fetch, hm, hs]

/-- Which payload bytes are not sent yet, as an inequality on the position (R51, R59). -/
theorem byteUnsent_iff (s : State) (i : Nat) :
    s.byteUnsent i = true ↔ s.k < 15 + 8 * i ∨ (s.k = 15 + 8 * i ∧ (s.ph = .waitA ∨ s.ph = .writeA)) := by
  simp only [State.byteUnsent, Bool.or_eq_true, Bool.and_eq_true, decide_eq_true_eq]
  rfl

/-- A step, over the state its input leaves. -/
theorem step_eq (s : State) : step s = elapseAfter s.nextInput.advance
    (if s.nextInput.reset then .next s.afterInput.resetBlock else s.afterInput.blockStep) := rfl

/-- Without reset a step is the block's own step, then time passes. -/
theorem step_noReset {s : State} (h : s.nextInput.reset = false) :
    step s = elapseAfter s.nextInput.advance s.afterInput.blockStep := by
  rw [step_eq, h]; rfl

/-- With reset a step is the reset event, then time passes. -/
theorem step_reset {s : State} (h : s.nextInput.reset = true) :
    step s = .next (s.afterInput.resetBlock.elapse s.nextInput.advance) := by
  rw [step_eq, h]; rfl

/-- A busy block's step is a micro-step of the symbol at its position. -/
theorem step_busy {s : State} {sym : Symbol} (hr : s.nextInput.reset = false) (hm : s.mode = .busy)
    (hs : frameSymbol s.afterInput.pbuf s.k = some sym) :
    step s = .next ((s.afterInput.microStep sym).elapse s.nextInput.advance) := by
  rw [step_noReset hr, blockStep_symbol (by simpa using hm) (by simpa using hs), exec_symbol sym (by simpa using hm)]
  rfl

/-- An idle block's step runs the host's next command. -/
theorem step_command {s : State} {c : Command} {rest : List Command} (hr : s.nextInput.reset = false)
    (hm : s.mode = .idle) (hc : s.commands = c :: rest) :
    step s = elapseAfter s.nextInput.advance
      (exec (decodeCommand c.word) (s.afterInput.dropCommand.presentBuffer c.buffer)) := by
  rw [step_noReset hr, blockStep_command (by simpa using hm) (by simpa using hc)]

/-- An idle block with no command only lets time pass. -/
theorem step_idle {s : State} (hr : s.nextInput.reset = false) (hm : s.mode = .idle) (hc : s.commands = []) :
    step s = .next (s.afterInput.elapse s.nextInput.advance) := by
  rw [step_noReset hr, blockStep_idle (by simpa using hm) (by simpa using hc)]
  rfl

/-- Everything a step can answer with a next state: reset; an idle block with no command; a command accepted or executed
while IDLE; a micro-step of the symbol at position `K` while BUSY. Time passes in each. -/
theorem step_next {s u : State} (h : step s = .next u) :
    ∃ t, u = t.elapse s.nextInput.advance ∧
      ((s.nextInput.reset = true ∧ t = s.afterInput.resetBlock) ∨
      (s.nextInput.reset = false ∧ s.mode = .idle ∧ s.commands = [] ∧ t = s.afterInput) ∨
      (s.nextInput.reset = false ∧ s.mode = .idle ∧ ∃ c rest, s.commands = c :: rest ∧
        exec (decodeCommand c.word) (s.afterInput.dropCommand.presentBuffer c.buffer) = .next t) ∨
      (s.nextInput.reset = false ∧ s.mode = .busy ∧ ∃ sym, frameSymbol s.afterInput.pbuf s.k = some sym ∧
        t = s.afterInput.microStep sym)) := by
  rw [step_eq] at h
  obtain ⟨t, ht, rfl⟩ := elapseAfter_next.mp h
  refine ⟨t, rfl, ?_⟩
  by_cases hr : s.nextInput.reset = true
  · rw [if_pos hr] at ht
    exact .inl ⟨hr, (Host.Outcome.next.inj ht).symm⟩
  · rw [if_neg hr] at ht
    have hr' : s.nextInput.reset = false := by simpa using hr
    cases hm : s.mode with
    | idle =>
      cases hc : s.commands with
      | nil =>
        rw [blockStep_idle (by simp [hm]) (by simp [hc])] at ht
        exact .inr (.inl ⟨hr', rfl, rfl, (Host.Outcome.next.inj ht).symm⟩)
      | cons c rest =>
        have hma : s.afterInput.mode = .idle := by simp [hm]
        have hca : s.afterInput.commands = c :: rest := by simp [hc]
        rw [blockStep_command hma hca] at ht
        exact .inr (.inr (.inl ⟨hr', rfl, c, rest, rfl, ht⟩))
    | busy =>
      have hma : s.afterInput.mode = .busy := by simp [hm]
      cases hs : frameSymbol s.afterInput.pbuf s.k with
      | none =>
        rw [blockStep_past hma (by simp [hs])] at ht
        cases ht
      | some sym =>
        rw [blockStep_symbol hma (by simpa using hs), exec_symbol sym hma] at ht
        exact .inr (.inr (.inr ⟨hr', rfl, sym, rfl, (Host.Outcome.next.inj ht).symm⟩))

end Sys2Proof.Machine
end

