-- ==== Sys2Proof/Laws/Memory.lean ====
section
/-! SUPPORT. Every operation on the payload space and on the pin levels keeps the canonical form, and the reset state has it. -/

namespace Sys2Proof.Machine

theorem reset_payload_wf : Memory.wf State.reset.payload := List.Pairwise.nil

theorem reset_level_wf : cellsWf State.reset.level := List.Pairwise.nil

theorem presentBuffer_payload_wf (s : State) (buffer : List Byte) : Memory.wf (s.presentBuffer buffer).payload :=
  cellsFrom_wf 0 buffer

theorem hostStore_payload_wf {s : State} (h : Memory.wf s.payload) (i : Nat) (b : Byte) :
    Memory.wf (s.hostStore i b).payload := writeCell_wf h i b

theorem pinWrite_level_wf {s : State} (h : cellsWf s.level) (p : PinId) (lv : Level) :
    cellsWf (s.pinWrite p lv).level := writeCell_wf h p.toNat lv

/-- A pin write sets the level of its pin and no other (R26). -/
theorem levelOf_pinWrite (s : State) (p q : PinId) (lv : Level) :
    (s.pinWrite p lv).levelOf q = if q = p then some lv else s.levelOf q := by
  unfold State.levelOf
  rw [pinWrite_level, readCell_writeCell]
  by_cases h : q = p
  · simp [h]
  · rw [if_neg h, if_neg (fun e => h (BitVec.eq_of_toNat_eq e))]

end Sys2Proof.Machine
end

