-- ==== Sys2Proof/Laws/PerInstr.lean ====
section
/-! SUPPORT. One statement per instruction about its encoding: the family TableMatch says that the word the encoder writes
meets the match of the instruction's row of spec/opcode_table.json under the row's mask, and no other row's of its format. -/

namespace Sys2Proof.Laws.TableMatch

/-- The encoded word is a command word whose bits under the mask `0x30000` are `m`. -/
def commandRow (i : Instr) (m : Nat) : Prop :=
  match encode i with
  | .command cw => cw.toNat &&& 0x30000 = m
  | .symbol _ => False

/-- The encoded word is the symbol code `m` under the mask `0x1`. -/
def symbolRow (i : Instr) (m : Nat) : Prop :=
  match encode i with
  | .command _ => False
  | .symbol code => code.toNat &&& 0x1 = m

/-- The instruction's row of the table. -/
def Statement : Instr → Prop
  | .setTransmitPin pin => commandRow (.setTransmitPin pin) 0x00000
  | .transmitU16 value => commandRow (.transmitU16 value) 0x10000
  | .transmitFrame length => commandRow (.transmitFrame length) 0x20000
  | .reservedCmd3 arg => commandRow (.reservedCmd3 arg) 0x30000
  | .sendSymbolZero => symbolRow .sendSymbolZero 0x0
  | .sendSymbolOne => symbolRow .sendSymbolOne 0x1

/-- The masked bits of a command word are its operation code, in place. -/
theorem masked_commandWord (op : BitVec 2) (arg : BitVec 16) :
    (op ++ arg).toNat &&& 0x30000 = op.toNat * 0x10000 := by
  have h : ((op ++ arg) &&& 0x30000#18) = (op ++ 0#16) := by
    ext i hi
    have hm : (0x30000#18).getLsbD i = decide (16 ≤ i) := by interval_cases i <;> decide
    simp only [BitVec.getElem_and, BitVec.getElem_append]
    rw [← BitVec.getLsbD_eq_getElem (x := 0x30000#18), hm]
    by_cases hlt : i < 16
    · simp [hlt, Nat.not_le.mpr hlt]
    · simp [hlt, Nat.le_of_not_lt hlt]
  have h' := congrArg BitVec.toNat h
  rw [BitVec.toNat_and] at h'
  rw [show (0x30000 : Nat) = (0x30000#18).toNat from rfl, h', BitVec.toNat_append]
  simp [Nat.shiftLeft_eq]

theorem setTransmitPin (pin : PinId) : Statement (.setTransmitPin pin) := masked_commandWord 0b00#2 pin

theorem transmitU16 (value : BitVec 16) : Statement (.transmitU16 value) := masked_commandWord 0b01#2 value

theorem transmitFrame (length : Nat) : Statement (.transmitFrame length) :=
  masked_commandWord 0b10#2 (BitVec.ofNat 16 length)

theorem reservedCmd3 (arg : BitVec 16) : Statement (.reservedCmd3 arg) := masked_commandWord 0b11#2 arg

theorem sendSymbolZero : Statement .sendSymbolZero := rfl

theorem sendSymbolOne : Statement .sendSymbolOne := rfl

end Sys2Proof.Laws.TableMatch
end

