-- ==== Sys2Proof/Laws/Record.lean ====
section
/-! SUPPORT. How the frame record grows with the trace, one lemma per kind of event. -/

namespace Sys2Proof.Safety

open Sys2Proof.Machine

/-- The record of a longer trace goes on from the record of the shorter one. -/
@[simp] theorem frameRecord_append (tr l : Trace) : frameRecord (tr ++ l) = l.foldl FrameRecord.add (frameRecord tr) := by
  simp [frameRecord, List.foldl_append]

@[simp] theorem add_accept (r : FrameRecord) (t : Nat) (p : List Byte) :
    r.add (t, .accept p) = { start := some t, writes := [], stamps := [], afterWrite := false, doneAt := none } := rfl

@[simp] theorem add_pinWrite (r : FrameRecord) (t : Nat) (p : PinId) (lv : Level) :
    r.add (t, .pinWrite p lv) = { r with writes := r.writes ++ [(t, p, lv)], afterWrite := true } := rfl

@[simp] theorem add_clockRead (r : FrameRecord) (t : Nat) (c : Time) :
    r.add (t, .clockRead c) =
      { r with stamps := if r.afterWrite = true then r.stamps ++ [t] else r.stamps, afterWrite := false } := rfl

@[simp] theorem add_pinMode (r : FrameRecord) (t : Nat) (p : PinId) : r.add (t, .pinMode p) = r := rfl

@[simp] theorem add_done (r : FrameRecord) (t : Nat) : r.add (t, .done) = { r with doneAt := some t } := rfl

end Sys2Proof.Safety
end

