-- ==== Sys2Proof/Laws/Timer.lean ====
section
/-! SUPPORT. The comparator of the bit-transition timer, on words and on true times (R111, R116, R217). -/

namespace Sys2Proof.Machine

/-- The comparator as an inequality of numbers. -/
theorem waitOver_iff (now ref : Time) : waitOver now ref = true ↔ 1000 ≤ (now - ref).toNat := decide_eq_true_iff

/-- The same, with the difference taken modulo `2^32`. -/
theorem waitOver_iff_mod (now ref : Time) :
    waitOver now ref = true ↔ 1000 ≤ (now.toNat + (2 ^ 32 - ref.toNat)) % 2 ^ 32 := by
  rw [waitOver_iff, BitVec.toNat_sub, Nat.add_comm]

end Sys2Proof.Machine
end

