-- ==== Sys2Proof/Tests/Slice0.lean ====
section
/-! SUPPORT. Tests: words written out from the spec's encodings, the spec's own vectors (95_test_vectors.md), ill-formed terms,
and for each obligation with hypotheses a witness that meets them. -/

namespace Sys2Proof.Tests

open Sys2Proof Sys2Proof.Machine Sys2Proof.Safety

/-! ### Words, from the tables of 30_encoding.md R82, R83 and from V2.8 -/

theorem test_decode_setTransmitPin : decode (.command 0b000000000000000111#18) = .setTransmitPin 7 := by decide
theorem test_decode_transmitU16 : decode (.command 0b010000010011010010#18) = .transmitU16 1234 := by decide
theorem test_decode_transmitFrame : decode (.command 0b100000000000000010#18) = .transmitFrame 2 := by decide
theorem test_decode_reservedCmd3 : decode (.command 0b110000000000000001#18) = .reservedCmd3 1 := by decide
theorem test_decode_sendSymbolZero : decode (.symbol 0b0#1) = .sendSymbolZero := by decide
theorem test_decode_sendSymbolOne : decode (.symbol 0b1#1) = .sendSymbolOne := by decide
theorem test_encode_transmitU16 : encode (.transmitU16 0xFFFF) = .command 0x1FFFF#18 := by decide
theorem test_encode_transmitFrame : encode (.transmitFrame 0) = .command 0x20000#18 := by decide
theorem test_decodeTableWord :
    decodeTableWord 24 0x104D2 = some (.transmitU16 1234) ∧ decodeTableWord 8 1 = some .sendSymbolOne ∧
      decodeTableWord 24 0x40000 = none ∧ decodeTableWord 8 2 = none := by decide

/-! ### Ill-formed terms, each refused by its check -/

theorem test_wf_length : Instr.wf (.transmitFrame 65536) = false ∧ Instr.wf (.transmitFrame 65535) = true := by decide
theorem test_hostIssued :
    Instr.hostIssued (.reservedCmd3 0) = false ∧ Instr.hostIssued .sendSymbolZero = false ∧
      Instr.hostIssued .sendSymbolOne = false ∧ Instr.hostIssued (.transmitFrame 0) = true := by decide
theorem test_bufferFits :
    Instr.bufferFits (.transmitFrame 2) [1] = false ∧ Instr.bufferFits (.setTransmitPin 7) [1] = false ∧
      Instr.bufferFits (.transmitU16 7) [1] = false ∧ Instr.bufferFits (.transmitFrame 2) [1, 2] = true := by decide
theorem test_bytes_refused :
    (decodeBytes .cmd [0, 0]).toOption = none ∧ (decodeBytes .cmd [0, 0, 4]).toOption = none ∧
      (decodeBytes .sym [2]).toOption = none ∧ (decodeBytes .sym []).toOption = none := by decide

/-! ### The frame and the comparator: V2.2 to V2.6 -/

/-- A level string of the vectors: `true` is HIGH. -/
def levelsOf (bits : List Bool) : List Level := bits.map fun b => if b then .high else .low

/-- V2.2: byte `0xA5` has the payload symbols `10100101`. -/
theorem test_marshal_A5 :
    (List.range 8).filterMap (payloadSymbol [0xA5#8]) = [.one, .zero, .one, .zero, .zero, .one, .zero, .one] := by decide

/-- V2.2: byte `0xD2` has the payload symbols `01001011`. -/
theorem test_marshal_D2 :
    (List.range 8).filterMap (payloadSymbol [0xD2#8]) = [.zero, .one, .zero, .zero, .one, .zero, .one, .one] := by decide

/-- V2.3: TRANSMIT_FRAME `[0x01]` sends `0000000000000011000000000`. -/
theorem test_frame_01 :
    frameSymbols [0x01#8] =
      List.replicate 14 .zero ++ [.one, .one, .zero, .zero, .zero, .zero, .zero, .zero, .zero, .zero, .zero] := by decide

/-- V2.3: the levels of the empty frame, `1010101010101010101010101010011010`. -/
theorem test_levels_empty :
    frameLevels [] = (List.replicate 14 [.high, .low]).flatten ++ levelsOf [false, true, true, false, true, false] := by
  decide

/-- P5: the false level string of TRANSMIT_FRAME `[0x01]` (it is that of `[0x80]`) is refuted. -/
theorem test_false_variant : frameLevels [0x01#8] ≠ frameLevels [0x80#8] := by decide

/-- V1.4: TRANSMIT_U16 1234 has the payload `[0x04, 0xD2]`. -/
theorem test_split_1234 : splitU16 1234 = [0x04#8, 0xD2#8] := by decide

/-- V2.4: the comparator, across the wrap too. -/
theorem test_comparator :
    waitOver 5999 5000 = false ∧ waitOver 6000 5000 = true ∧ waitOver 9000 5000 = true ∧
      waitOver 0xFFFFFFFF 0xFFFFFE00 = false ∧ waitOver 0x1E7 0xFFFFFE00 = false ∧ waitOver 0x1E8 0xFFFFFE00 = true ∧
      waitOver 9 0xFFFFFC22 = false ∧ waitOver 10 0xFFFFFC22 = true := by decide

/-- V2.6: `LTT` after acceptance. -/
theorem test_frame_start :
    frameStartRef 100000 = 99010 ∧ frameStartRef 990 = 0 ∧ frameStartRef 989 = 0xFFFFFFFF ∧
      frameStartRef 0 = 0xFFFFFC22 ∧ frameStartRef 0xFFFFFFFF = 0xFFFFFC21 := by decide

/-! ### Small states -/

/-- An idle block at `T = 100000` on pin 7, with a list of commands and of inputs. -/
def idleAt (commands : List Command) (inputs : List Input) : State where
  pin := 7
  ltt := 5000
  mode := .idle
  k := 3
  ph := .stampB
  nlen := 9
  pbuf := []
  psrc := .operand
  level := []
  payload := [(0, 0x04), (1, 0xD2)]
  time := 100000
  trace := []
  commands := commands
  inputs := inputs
  steps := 0

/-- A busy block about to take the micro-step `ph` of symbol `k` of the frame of the one byte `0x01`, with the clock at
`time` and `LTT = 5000`. -/
def busyAt (k : Nat) (ph : Phase) (time : Nat) (inputs : List Input) : State where
  pin := 7
  ltt := 5000
  mode := .busy
  k := k
  ph := ph
  nlen := 1
  pbuf := [0x01]
  psrc := .hostBuffer
  level := [(7, .low)]
  payload := [(0, 0x01)]
  time := time
  trace := []
  commands := []
  inputs := inputs
  steps := 0

/-- The next state of an outcome, if it has one. -/
def nextOf : Host.Outcome State Fault Refusal → Option State
  | .next s => some s
  | .fault _ => none
  | .refused _ => none

/-! ### One step of each instruction -/

/-- V2.7: SET_TRANSMIT_PIN 0xFFFF. -/
theorem test_setTransmitPin :
    (nextOf (exec (.setTransmitPin 0xFFFF) (idleAt [] []))).map (fun t => (t.pin, t.ltt, t.trace)) =
      some (0xFFFF, 5000, [(100000, .pinMode 0xFFFF)]) := by decide

/-- V1.6: a frame accepted at 100000 has `LTT = 99010`, and the buffer captured. -/
theorem test_transmitFrame :
    (nextOf (exec (.transmitFrame 2) (idleAt [] []))).map (fun t => (t.ltt, t.mode, t.pbuf, t.nlen)) =
      some (99010, .busy, [0x04, 0xD2], 2) := by decide

/-- R148: TRANSMIT_U16 takes its payload from the operand, not from the buffer. -/
theorem test_transmitU16 :
    (nextOf (exec (.transmitU16 0x8001) (idleAt [] []))).map (fun t => (t.pbuf, t.k, t.ph)) =
      some ([0x80, 0x01], 0, .waitA) := by decide

/-- V2.5: `PinWrite(7, HIGH)`, the first half of ZERO. -/
theorem test_sendSymbolZero :
    (nextOf (exec .sendSymbolZero (busyAt 16 .writeA 6000 []))).map (fun t => (t.level, t.ph, t.trace)) =
      some ([(7, .high)], .stampA, [(6000, .pinWrite 7 .high)]) := by decide

/-- R112: one poll too early stays in the wait. -/
theorem test_sendSymbolZero_early :
    (nextOf (exec .sendSymbolZero (busyAt 16 .waitA 5999 []))).map (fun t => t.ph) = some .waitA := by decide

/-- R113: the second half of ONE is HIGH. -/
theorem test_sendSymbolOne :
    (nextOf (exec .sendSymbolOne (busyAt 15 .writeB 6000 []))).map (fun t => (t.level, t.ph)) =
      some ([(7, .high)], .stampB) := by decide

/-- R146: the second stamp of the last symbol ends the frame. -/
theorem test_last_stamp :
    (nextOf (exec .sendSymbolZero (busyAt 24 .stampB 7000 []))).map (fun t => (t.mode, t.ltt, t.trace)) =
      some (.idle, 7000, [(7000, .clockRead 7000), (7000, .done)]) := by decide

/-- R173. -/
theorem test_reserved : nextOf (step (idleAt [⟨0x30000, []⟩] [calm 0])) = none := by decide

/-- A step runs the word placed for it, from the state after reset. -/
theorem test_fetch_word :
    (nextOf (step (State.reset.withFetchWord 24 0x00007))).map (fun t => t.pin) = some 7 ∧
      (nextOf (step (State.reset.withFetchWord 24 0x20002))).map (fun t => (t.mode, t.pbuf)) = some (.busy, [0, 0]) ∧
      ((nextOf (step (State.reset.withFetchWord 8 1))).map (fun t => t.k)) = some 15 := by decide

/-! ### Witnesses: the hypotheses of each statement are met -/

/-- An input at which reset is asserted. -/
def resetInput : Input := { advance := 1, reset := true, store := none }

theorem witness_ResetEndsAnythingAtOnce : (busyAt 15 .writeB 6000 [resetInput]).nextInput.reset = true := by decide

theorem witness_idle : (idleAt [] []).mode = .idle := rfl

theorem witness_SetTransmitPinSelectsPin : (idleAt [] []).mode = .idle ∧ (busyAt 15 .waitA 0 []).mode = .busy := ⟨rfl, rfl⟩

theorem witness_SetTransmitPinLeavesTheRest : ∃ t, exec (.setTransmitPin 9) (idleAt [] []) = .next t := ⟨_, rfl⟩

theorem witness_ReservedCommandRefused :
    (idleAt [⟨0x3FFFF, []⟩] [calm 0]).mode = .idle ∧ noReset (idleAt [⟨0x3FFFF, []⟩] [calm 0]) ∧
      opField (0x3FFFF : CmdWord) = 0b11#2 := by decide

/-- The first wait at its boundary: not over 9 microseconds after the start, over after 10; the last `r` of the second
clause. -/
theorem witness_TransmitFrameAccepted :
    waitOver (BitVec.ofNat 32 100009) (BitVec.ofNat 32 100000 + 10#32 - 1000#32) = false ∧
      waitOver (BitVec.ofNat 32 100010) (BitVec.ofNat 32 100000 + 10#32 - 1000#32) = true ∧
      waitOver (BitVec.ofNat 32 (100000 + 4294966305)) (BitVec.ofNat 32 100000 + 10#32 - 1000#32) = true ∧
      100000 + 4294966305 + 990 < 100000 + 2 ^ 32 := by decide

theorem witness_PayloadCapturedByValue_step :
    noReset (idleAt [⟨0x20002, [1, 2]⟩] []) ∧ decodeCommand 0x20002#18 = .transmitFrame [1, 2].length := by decide

theorem witness_PayloadCapturedByValue_bytes :
    readCell (idleAt [] []).payload 1 = some 0xD2 ∧
      ∀ i, i < 1 → readCell [(0, 0x04#8)] i = readCell (idleAt [] []).payload i := by decide

theorem witness_TransmitAcceptanceLeavesTheRest :
    (∃ t, exec (.transmitFrame 2) (idleAt [] []) = .next t) ∧ ∃ t, exec (.transmitU16 2) (idleAt [] []) = .next t :=
  ⟨⟨_, rfl⟩, ⟨_, rfl⟩⟩

theorem witness_NextFrameStartsTenMicrosecondsLater :
    decodeCommand 0x20000#18 = .transmitFrame 0 ∧
      (idleAt [⟨0x20000, []⟩] [calm 10, calm 0, calm 0]).inputs = calm 10 :: calm 0 :: calm 0 :: [] := by decide

/-- The first and the last payload symbol of two bytes, and the last bit of the last byte. -/
theorem witness_payload_indices : 0 < 8 * [1#8, 2#8].length ∧ 15 < 8 * [1#8, 2#8].length ∧ 1 < [1#8, 2#8].length := by
  decide

/-- Both waits of both outcomes: 999 after the reference, and 1000. -/
theorem witness_PollEndsWaitExactlyAtInterval :
    (∀ ph, (busyAt 15 ph 5999 []).mode = .busy ∧ (busyAt 15 ph 6000 []).ph = ph) ∧ (BitVec.ofNat 32 5999 - (busyAt 15 .waitA 5999 []).ltt).toNat < 1000 ∧
      1000 ≤ (BitVec.ofNat 32 6000 - (busyAt 15 .waitB 6000 []).ltt).toNat :=
  ⟨fun _ => ⟨rfl, rfl⟩, by decide, by decide⟩

/-- Every phase is met in BUSY; the second stamp both at a last symbol and before it. -/
theorem witness_SendSymbolRunsTheMicroStepTable :
    (∀ ph, (busyAt 15 ph 6000 []).mode = .busy ∧ (busyAt 15 ph 6000 []).ph = ph) ∧
      (busyAt 24 .stampB 6000 []).k + 1 = 17 + 8 * (busyAt 24 .stampB 6000 []).nlen ∧
      (busyAt 23 .stampB 6000 []).k + 1 ≠ 17 + 8 * (busyAt 23 .stampB 6000 []).nlen :=
  ⟨fun _ => ⟨rfl, rfl⟩, by decide, by decide⟩

/-- The step of the second clause: symbol 15 of the frame of `0x01` is ONE, and the input is calm. -/
theorem witness_SendSymbolRunsTheMicroStepTable_step :
    (busyAt 15 .writeA 6000 [calm 5]).mode = .busy ∧ frameSymbol (busyAt 15 .writeA 6000 [calm 5]).pbuf 15 = some .one ∧
      (busyAt 15 .writeA 6000 [calm 5]).inputs = calm 5 :: [] := by decide

theorem witness_SendSymbolLeavesTheRest :
    ∀ ph, (∃ t, exec .sendSymbolZero (busyAt 15 ph 6000 []) = .next t) ∧
      ∃ t, exec .sendSymbolOne (busyAt 15 ph 6000 []) = .next t :=
  fun _ => ⟨⟨_, rfl⟩, ⟨_, rfl⟩⟩

/-- 999 and 1000 microseconds after a reference taken just before the clock wraps. -/
theorem witness_WaitNeverEndsEarly :
    waitOver (BitVec.ofNat 32 (4294967000 + 999)) (BitVec.ofNat 32 4294967000) = false ∧
      waitOver (BitVec.ofNat 32 (4294967000 + 1000)) (BitVec.ofNat 32 4294967000) = true ∧
      4294967000 + 1000 < 4294967000 + 2 ^ 32 := by decide

/-- One symbol of each kind: ONE is symbol 15 of the frame of `0x01`, ZERO is symbol 16. -/
theorem witness_WholeSymbolWritesTwoLevels :
    frameSymbol (busyAt 15 .waitA 6000 (promptHalves 2)).pbuf 15 = some .one ∧
      frameSymbol (busyAt 16 .waitA 6000 (promptHalves 2)).pbuf 16 = some .zero ∧
      1000 ≤ (BitVec.ofNat 32 6000 - (busyAt 15 .waitA 6000 (promptHalves 2)).ltt).toNat ∧
      (busyAt 15 .waitA 6000 (promptHalves 2)).inputs = promptHalves 2 ++ [] ∧
      (busyAt 15 .waitA 6000 (promptHalves 2)).mode = .busy ∧ (busyAt 15 .waitA 6000 (promptHalves 2)).ph = .waitA := by
  decide

theorem witness_StepRunsTheDecodedCommand :
    (idleAt [⟨0x20002, [1, 2]⟩] [calm 5]).mode = .idle ∧ noReset (idleAt [⟨0x20002, [1, 2]⟩] [calm 5]) := by decide

theorem witness_StepRunsTheSelectedSymbol :
    noReset (busyAt 15 .waitA 6000 [calm 5]) ∧
      frameSymbol (((busyAt 15 .waitA 6000 [calm 5]).takeInput.applyStore none).pbuf) 15 = some .one := by decide

theorem witness_IdleBlockHoldsItsState :
    (idleAt [] [calm 5]).mode = .idle ∧ noReset (idleAt [] [calm 5]) ∧ (idleAt [] [calm 5]).commands = [] := by decide

/-- The four cases in which a host store cannot reach `PBUF`, the last two at their boundary; and the boundary on the
other side, where it can. -/
theorem witness_HostStoreRacesOnlyWithUnsentBytes :
    (idleAt [] []).mode = .idle ∧ (idleAt [] []).psrc = .operand ∧ 15 + 8 * 0 < (busyAt 16 .waitA 0 []).k ∧
      ((busyAt 15 .stampA 0 []).k = 15 + 8 * 0 ∧ (busyAt 15 .stampA 0 []).ph ≠ .waitA ∧
        (busyAt 15 .stampA 0 []).ph ≠ .writeA) ∧
      (busyAt 15 .writeA 0 []).byteUnsent 0 = true := by decide

theorem witness_SequencerInv_busy : SequencerInv (busyAt 24 .stampB 7000 [calm 0]) :=
  ⟨by decide, by decide, by decide, by decide⟩

theorem witness_SequencerInv_reserved :
    SequencerInv (idleAt [⟨0x30000, []⟩] [calm 0]) ∧ opField (0x30000 : CmdWord) = 0b11#2 :=
  ⟨⟨by decide, by decide, by decide, by decide⟩, by decide⟩

/-- IDLE to BUSY by both transmit commands; BUSY to IDLE by reset and by the last stamp. -/
theorem witness_ModeChanges :
    (nextOf (step (idleAt [⟨0x20002, [1, 2]⟩] [calm 5]))).map (fun t => t.mode) = some .busy ∧
      (nextOf (step (idleAt [⟨0x104D2, []⟩] [calm 5]))).map (fun t => t.mode) = some .busy ∧
      (nextOf (step (busyAt 15 .waitA 6000 [resetInput]))).map (fun t => t.mode) = some .idle ∧
      (nextOf (step (busyAt 24 .stampB 6000 [calm 0]))).map (fun t => t.mode) = some .idle := by decide

/-- The three writers of `LTT` but reset: a frame start and the two stamps. -/
theorem witness_LttWritten :
    (nextOf (step (idleAt [⟨0x20002, [1, 2]⟩] [calm 5]))).map (fun t => t.ltt) = some 99010 ∧
      (nextOf (step (busyAt 15 .stampA 6000 [calm 5]))).map (fun t => t.ltt) = some 6000 ∧
      (nextOf (step (busyAt 15 .stampB 6000 [calm 5]))).map (fun t => t.ltt) = some 6000 := by decide

theorem witness_PinChanges :
    (nextOf (step (idleAt [⟨0x00009, []⟩] [calm 5]))).map (fun t => t.pin) = some 9 ∧
      (nextOf (step (busyAt 15 .waitA 6000 [resetInput]))).map (fun t => t.pin) = some Config.defaultPin :=
  ⟨by decide, rfl⟩

theorem witness_LevelsChange :
    (nextOf (step (busyAt 15 .writeB 6000 [calm 5]))).map (fun t => (t.levelOf 7, t.levelOf 8)) =
      some (some .high, none) := by decide

/-- A frame of the byte `0x01` just after its first pin write, 10 microseconds after its acceptance at 100000. -/
def justWritten : State :=
  { busyAt 0 .stampA 100010 [calm 5] with
    ltt := 99010, level := [(7, .high)]
    trace := [(90000, .pinMode 7), (100000, .accept [0x01]), (100000, .clockRead 100000), (100010, .clockRead 100010),
      (100010, .pinWrite 7 .high)] }

theorem witness_WaveformInv : WaveformInv justWritten :=
  ⟨⟨by decide, by decide, by decide, by decide⟩, fun _ => by decide, fun _ => rfl, fun _ w h => by
    have hw : (frameRecord justWritten.trace).levels.getLast? = some (7, .high) := by decide
    rw [hw] at h
    cases h
    decide⟩

theorem justWritten_start : (frameRecord justWritten.trace).start = some 100000 := rfl

theorem justWritten_times : (frameRecord justWritten.trace).times = [100010] := rfl

theorem witness_TimingInv : TimingInv justWritten where
  writes_spaced := by decide
  stamps_spaced := by decide
  first_write c0 h t ht := by
    rw [justWritten_start, Option.some.injEq] at h
    rw [justWritten_times, List.mem_singleton] at ht
    omega
  done_time _ _ _ h := by cases h
  running _ := ⟨100000, rfl, by decide, rfl, by decide, by decide, by decide,
    show 100000 + 1000 * (writesMade justWritten - 1) + 10 ≤ justWritten.time ∧
      (∀ t ∈ (frameRecord justWritten.trace).times, t ≤ justWritten.time) ∧
      ∀ u ∈ (frameRecord justWritten.trace).stamps, u + 1000 ≤ justWritten.time by decide⟩

theorem witness_invariants_step : ∃ t, step justWritten = .next t := ⟨_, rfl⟩

theorem witness_PinSelectedInv : PinSelectedInv justWritten := .inr (by decide)

/-- An empty frame whose 34 pin writes are made, about to take its last stamp. -/
def lastStamp : State :=
  { busyAt 16 .stampB 133010 [calm 5] with
    nlen := 0, pbuf := []
    trace := (100000, .accept []) :: (frameLevels []).map fun lv => (133010, .pinWrite 7 lv) }

theorem witness_LastStampEndsTheWholeFrame :
    WaveformInv lastStamp ∧ lastStamp.mode = .busy ∧ lastStamp.ph = .stampB ∧ lastStamp.k + 1 = 17 + 8 * lastStamp.nlen ∧
      noReset lastStamp :=
  ⟨⟨⟨by decide, by decide, by decide, by decide⟩, fun _ => by decide, fun _ => by decide, fun _ w h => by
    have hw : (frameRecord lastStamp.trace).levels.getLast? = some (7, .low) := by decide
    rw [hw] at h
    cases h
    decide⟩, rfl, rfl, rfl, by decide⟩

theorem witness_PromptFrameTakesItsNominalTime :
    (idleAt [⟨0x20000, []⟩] (promptFrame 17)).inputs = promptFrame (17 + 8 * ([] : List Byte).length) ++ [] ∧
      decodeCommand 0x20000#18 = .transmitFrame ([] : List Byte).length := by decide

/-- Inputs enough for a one-byte frame, one microsecond a step. -/
def slowClock : List Input := List.replicate (2006 * 25) (calm 1)

theorem witness_LiveClockEndsEveryFrame :
    SequencerInv (busyAt 0 .waitA 6000 slowClock) ∧ (busyAt 0 .waitA 6000 slowClock).mode = .busy ∧
      liveInputs (busyAt 0 .waitA 6000 slowClock).inputs ∧
      2006 * (17 + 8 * (busyAt 0 .waitA 6000 slowClock).nlen) ≤ (busyAt 0 .waitA 6000 slowClock).inputs.length :=
  ⟨⟨List.pairwise_singleton .., List.pairwise_singleton .., fun _ => rfl, fun _ => (by decide : 0 < symbolCount 1)⟩, rfl,
    fun i h => by rw [List.eq_of_mem_replicate h]; decide, by show 2006 * 25 ≤ slowClock.length; rw [slowClock, List.length_replicate]⟩

theorem witness_DecodeOfEncode : Instr.wf (.transmitFrame 65535) = true ∧ Instr.wf (.transmitFrame 0) = true := by decide

/-- The last byte of a word at its boundary: 3 is in the 18-bit port, 4 is not; a symbol byte 1 is a code, 2 is not. -/
theorem witness_ByteDecoder : (3#8).toNat < 4 ∧ 4 ≤ (4#8).toNat ∧ (1#8).toNat < 2 ∧ 2 ≤ (2#8).toNat := by decide

end Sys2Proof.Tests
end

namespace Sys2Proof.Machine

/-! ### Time arithmetic (R9) -/

/-- The unsigned time difference as a number, modulo `2^32`. -/
theorem tsub_toNat_int (a b : Time) : ((tsub a b).toNat : Int) = ((a.toNat : Int) - (b.toNat : Int)) % 2 ^ 32 := by
  have ha := a.isLt
  have hb := b.isLt
  rw [tsub, BitVec.toNat_sub]
  omega

/-- Settles O20: `tadd` and `tsub` are addition and subtraction modulo `2^32`, and the comparator compares unsigned. -/
theorem timeArithmeticIsModular : Obligations.TimeArithmeticIsModular := fun a b =>
  ⟨BitVec.toNat_add a b, tsub_toNat_int a b, waitOver_iff a b⟩

/-! ### What a micro-step keeps in every phase -/

@[simp] theorem microStep_time (s : State) (sym : Symbol) : (s.microStep sym).time = s.time := by
  cases h : s.ph <;> simp [State.microStep, h]

@[simp] theorem microStep_nlen (s : State) (sym : Symbol) : (s.microStep sym).nlen = s.nlen := by
  cases h : s.ph <;> simp [State.microStep, h]

@[simp] theorem microStep_pbuf (s : State) (sym : Symbol) : (s.microStep sym).pbuf = s.pbuf := by
  cases h : s.ph <;> simp [State.microStep, h]

@[simp] theorem microStep_inputs (s : State) (sym : Symbol) : (s.microStep sym).inputs = s.inputs := by
  cases h : s.ph <;> simp [State.microStep, h]

/-! ### Events are appended, at the time of the step (R12) -/

/-- `tr'` is `tr` with at most two events after it, each at the time `now`. -/
def AppendsAtMostTwo (now : Nat) (tr tr' : Trace) : Prop :=
  ∃ events : List (Nat × Event), tr' = tr ++ events ∧ events.length ≤ 2 ∧ ∀ e ∈ events, e.1 = now

theorem appendsAtMostTwo_none (now : Nat) (tr : Trace) : AppendsAtMostTwo now tr tr :=
  ⟨[], by simp⟩

theorem appendsAtMostTwo_one (now : Nat) (tr : Trace) (e : Event) : AppendsAtMostTwo now tr (tr ++ [(now, e)]) :=
  ⟨[(now, e)], by simp⟩

theorem appendsAtMostTwo_two (now : Nat) (tr : Trace) (e f : Event) :
    AppendsAtMostTwo now tr (tr ++ [(now, e)] ++ [(now, f)]) :=
  ⟨[(now, e), (now, f)], by simp⟩

/-- Acceptance records `Accept` and the frame-start clock read (R141). -/
theorem beginFrame_appends (s : State) (payload : List Byte) (src : PayloadSource) :
    AppendsAtMostTwo s.time s.trace (s.beginFrame payload src).trace :=
  appendsAtMostTwo_two s.time s.trace _ _

/-- A micro-step records one event, and the last stamp of a frame `Done` after its clock read (R114, R146). -/
theorem microStep_appends (s : State) (sym : Symbol) : AppendsAtMostTwo s.time s.trace (s.microStep sym).trace := by
  cases h : s.ph with
  | waitA => rw [microStep_waitA sym h]; exact appendsAtMostTwo_one ..
  | writeA => rw [microStep_writeA sym h]; exact appendsAtMostTwo_one ..
  | stampA => rw [microStep_stampA sym h]; exact appendsAtMostTwo_one ..
  | waitB => rw [microStep_waitB sym h]; exact appendsAtMostTwo_one ..
  | writeB => rw [microStep_writeB sym h]; exact appendsAtMostTwo_one ..
  | stampB =>
    rw [microStep_stampB sym h]
    obtain ⟨-, hn⟩ | ⟨-, hn⟩ := nextSymbol_cases s.stamp
    · rw [hn]; exact appendsAtMostTwo_two ..
    · rw [hn]; exact appendsAtMostTwo_one ..

/-- No instruction lets time pass, and each appends at most two events at the current time. -/
theorem exec_time_trace {i : Instr} {s t : State} (h : exec i s = .next t) :
    t.time = s.time ∧ AppendsAtMostTwo s.time s.trace t.trace := by
  obtain ⟨p, -, -, rfl⟩ | ⟨v, -, -, rfl⟩ | ⟨n, -, -, rfl⟩ | ⟨sym, -, -, rfl⟩ := exec_next h
  · exact ⟨rfl, appendsAtMostTwo_one ..⟩
  · exact ⟨rfl, beginFrame_appends ..⟩
  · exact ⟨rfl, beginFrame_appends ..⟩
  · exact ⟨microStep_time s sym, microStep_appends s sym⟩

/-- A step adds to the true time what its input lets pass, and appends at most two events at the time it began. -/
theorem step_time_trace {s t : State} (h : step s = .next t) :
    t.time = s.time + s.nextInput.advance ∧ AppendsAtMostTwo s.time s.trace t.trace := by
  obtain ⟨u, rfl, hu⟩ := step_next h
  obtain ⟨-, rfl⟩ | ⟨-, -, -, rfl⟩ | ⟨-, -, c, rest, -, hexec⟩ | ⟨-, -, sym, -, rfl⟩ := hu
  · simp [appendsAtMostTwo_none]
  · simp [appendsAtMostTwo_none]
  · simpa using exec_time_trace hexec
  · simpa using microStep_appends s.afterInput sym

/-- Settles O36, by the cases of a step. -/
theorem timeAndTraceOnlyGrow : Obligations.TimeAndTraceOnlyGrow := fun s t h => by
  obtain ⟨htime, happends⟩ := step_time_trace h
  exact ⟨by omega, happends⟩

end Sys2Proof.Machine

namespace Sys2Proof.Safety

open Sys2Proof.Machine

/-! ### How many steps are left of a frame under a live clock (R150, R216)

A poll that finds its wait not over sees a difference below 1000; the clock then moves by at least 1, and by too little
to wrap past `LTT`. So a wait takes at most 1001 polls from any `LTT`, and a symbol 2 · 1001 + 4 = 2006 steps. -/

/-- A bound on the polls a wait begun now still takes, its last one included. -/
def pollsLeft (s : State) : Nat := 1000 - (s.now - s.ltt).toNat + 1

/-- A bound on the steps left of the current symbol. -/
def symbolStepsLeft (s : State) : Nat :=
  match s.ph with
  | .waitA => pollsLeft s + 1005
  | .writeA => 1005
  | .stampA => 1004
  | .waitB => pollsLeft s + 2
  | .writeB => 2
  | .stampB => 1

/-- A bound on the steps left of the current frame. -/
def frameStepsLeft (s : State) : Nat := 2006 * (symbolCount s.nlen - (s.k + 1)) + symbolStepsLeft s

/-- The position is inside a running frame: what the step bound needs of `SequencerInv`. -/
structure MidFrame (s : State) : Prop where
  busy : s.mode = .busy
  nlen_eq : s.nlen = s.pbuf.length
  k_lt : s.k < symbolCount s.nlen

theorem midFrame_of_sequencerInv {s : State} (h : SequencerInv s) (hm : s.mode = .busy) : MidFrame s :=
  ⟨hm, h.nlen_eq hm, h.k_lt hm⟩

theorem pollsLeft_pos (s : State) : 0 < pollsLeft s := Nat.succ_pos _

theorem pollsLeft_le (s : State) : pollsLeft s ≤ 1001 := by unfold pollsLeft; omega

theorem symbolStepsLeft_pos (s : State) : 0 < symbolStepsLeft s := by
  cases h : s.ph <;> simp [symbolStepsLeft, h]

theorem symbolStepsLeft_le (s : State) : symbolStepsLeft s ≤ 2006 := by
  have hpolls := pollsLeft_le s
  cases h : s.ph <;> simp only [symbolStepsLeft, h] <;> omega

theorem frameStepsLeft_pos (s : State) : 0 < frameStepsLeft s := by
  have hpos := symbolStepsLeft_pos s
  unfold frameStepsLeft
  omega

/-- Every frame is within the bound of 2006 steps a symbol. -/
theorem frameStepsLeft_le {s : State} (h : MidFrame s) : frameStepsLeft s ≤ 2006 * (17 + 8 * s.nlen) := by
  have hsym := symbolStepsLeft_le s
  have hk := h.k_lt
  rw [symbolCount_eq] at hk
  rw [frameStepsLeft, symbolCount_eq]
  omega

/-- While the difference of two times is below 1000, letting up to `2^31` microseconds pass does not wrap it. -/
theorem ofNat_add_sub_toNat {time d : Nat} {ref : Time} (h : (BitVec.ofNat 32 time - ref).toNat < 1000) (hd : d ≤ 2 ^ 31) :
    (BitVec.ofNat 32 (time + d) - ref).toNat = (BitVec.ofNat 32 time - ref).toNat + d := by
  have href := ref.isLt
  rw [BitVec.toNat_sub, BitVec.toNat_ofNat] at h ⊢
  rw [BitVec.toNat_sub, BitVec.toNat_ofNat]
  omega

/-- A poll that does not end its wait leaves one poll fewer to make, once a live clock has moved. -/
theorem pollsLeft_poll_lt {s : State} {d : Nat} (next : Phase) (hw : ¬ waitOver s.now s.ltt = true) (h1 : 1 ≤ d)
    (h2 : d ≤ 2 ^ 31) : pollsLeft ((s.poll next).elapse d) < pollsLeft s := by
  rw [waitOver_iff, Nat.not_le] at hw
  have hdiff := ofNat_add_sub_toNat (time := s.time) hw h2
  simp only [pollsLeft, elapse_now, poll_time, elapse_ltt, poll_ltt, hdiff]
  rw [State.now] at hw ⊢
  omega

/-- A micro-step before the second stamp stays in its symbol, and leaves fewer steps of it. -/
theorem microStep_withinSymbol {s : State} {d : Nat} (sym : Symbol) (hph : s.ph ≠ .stampB) (h1 : 1 ≤ d)
    (h2 : d ≤ 2 ^ 31) :
    (s.microStep sym).mode = s.mode ∧ (s.microStep sym).k = s.k ∧
      symbolStepsLeft ((s.microStep sym).elapse d) < symbolStepsLeft s := by
  have hpos := pollsLeft_pos s
  cases h : s.ph with
  | waitA =>
    rw [microStep_waitA sym h]
    refine ⟨rfl, rfl, ?_⟩
    by_cases hw : waitOver s.now s.ltt = true
    · simpa [symbolStepsLeft, h, hw] using hpos
    · simpa [symbolStepsLeft, h, hw] using pollsLeft_poll_lt .writeA hw h1 h2
  | writeA =>
    rw [microStep_writeA sym h]
    exact ⟨rfl, rfl, by simp [symbolStepsLeft, h]⟩
  | stampA =>
    rw [microStep_stampA sym h]
    have hle := pollsLeft_le ((s.stamp.goPhase .waitB).elapse d)
    refine ⟨rfl, rfl, ?_⟩
    simp only [symbolStepsLeft, h, elapse_ph, goPhase_ph]
    omega
  | waitB =>
    rw [microStep_waitB sym h]
    refine ⟨rfl, rfl, ?_⟩
    by_cases hw : waitOver s.now s.ltt = true
    · simpa [symbolStepsLeft, h, hw] using hpos
    · simpa [symbolStepsLeft, h, hw] using pollsLeft_poll_lt .writeB hw h1 h2
  | writeB =>
    rw [microStep_writeB sym h]
    exact ⟨rfl, rfl, by simp [symbolStepsLeft, h]⟩
  | stampB => exact absurd h hph

/-- The frame is over: IDLE, with `Done` the last event (R146). -/
def FrameDone (s : State) : Prop := s.mode = .idle ∧ ∃ d, s.trace.getLast? = some (d, .done)

/-- A micro-step of a running frame either ends the frame or leaves fewer steps of it, once a live clock has moved. -/
theorem microStep_progress {s : State} {d : Nat} (sym : Symbol) (h : MidFrame s) (h1 : 1 ≤ d) (h2 : d ≤ 2 ^ 31) :
    FrameDone ((s.microStep sym).elapse d) ∨
      (MidFrame ((s.microStep sym).elapse d) ∧ frameStepsLeft ((s.microStep sym).elapse d) < frameStepsLeft s) := by
  obtain ⟨hm, hn, hk⟩ := h
  by_cases hph : s.ph = .stampB
  · rw [microStep_stampB sym hph]
    obtain ⟨-, hnext⟩ | ⟨hnotLast, hnext⟩ := nextSymbol_cases s.stamp
    · exact .inl ⟨by simp [hnext], s.time, by simp [hnext]⟩
    · simp only [stamp_k, stamp_nlen] at hnotLast
      have hle := symbolStepsLeft_le (s.stamp.advanceSymbol.elapse d)
      refine .inr ⟨⟨by simpa [hnext] using hm, by simpa using hn, ?_⟩, ?_⟩
      · simp only [hnext, elapse_k, advanceSymbol_k, stamp_k, elapse_nlen, advanceSymbol_nlen, stamp_nlen]
        omega
      · have hstamp : symbolStepsLeft s = 1 := by simp [symbolStepsLeft, hph]
        simp only [frameStepsLeft, hnext, elapse_k, advanceSymbol_k, stamp_k, elapse_nlen, advanceSymbol_nlen,
          stamp_nlen, hstamp]
        omega
  · obtain ⟨hmode, hk', hlt⟩ := microStep_withinSymbol sym hph h1 h2
    refine .inr ⟨⟨by simpa [hmode] using hm, by simpa using hn, by simpa [hk'] using hk⟩, ?_⟩
    simpa [frameStepsLeft, hk'] using hlt

/-! ### Runs of a frame under a live clock -/

/-- Taking the step's input, with whatever the host stores, leaves the position inside the frame. -/
theorem midFrame_afterInput {s : State} (h : MidFrame s) : MidFrame s.afterInput :=
  ⟨by simpa using h.busy, by simpa using h.nlen_eq, by simpa using h.k_lt⟩

/-- Taking the step's input leaves the bound: it reads neither the payload nor the inputs. -/
theorem frameStepsLeft_afterInput (s : State) : frameStepsLeft s.afterInput = frameStepsLeft s := by
  simp [frameStepsLeft, symbolStepsLeft, pollsLeft]

/-- A step of a running frame at a live input has a next state, takes that input, and either ends the frame or leaves
fewer steps of it. -/
theorem step_progress {s : State} {i : Input} {rest : List Input} (h : MidFrame s) (hi : s.inputs = i :: rest)
    (hreset : i.reset = false) (h1 : 1 ≤ i.advance) (h2 : i.advance ≤ 2 ^ 31) :
    ∃ t, step s = .next t ∧ t.inputs = rest ∧
      (FrameDone t ∨ (MidFrame t ∧ frameStepsLeft t < frameStepsLeft s)) := by
  have hinput : s.nextInput = i := by simp [State.nextInput, hi]
  obtain ⟨sym, hsym⟩ := Option.isSome_iff_exists.mp <|
    (frameSymbol_isSome s.afterInput.pbuf s.k).mpr (by simpa [← h.nlen_eq] using h.k_lt)
  refine ⟨_, step_busy (by rw [hinput, hreset]) h.busy hsym, by simp [hi], ?_⟩
  rw [← frameStepsLeft_afterInput s, hinput]
  exact microStep_progress sym (midFrame_afterInput h) h1 h2

theorem runSteps_succ {n : Nat} {s t : State} (h : step s = .next t) : runSteps (n + 1) s = runSteps n t := by
  rw [runSteps, h]

/-- Under live inputs a running frame is over within any number of steps that reaches its bound. -/
theorem runSteps_frameDone {m : Nat} : ∀ {s : State}, MidFrame s → liveInputs s.inputs → frameStepsLeft s ≤ m →
    m ≤ s.inputs.length → ∃ n t, n ≤ m ∧ runSteps n s = some t ∧ FrameDone t := by
  induction m with
  | zero =>
    intro s _ _ hsteps _
    exact absurd hsteps (Nat.not_le.mpr (frameStepsLeft_pos s))
  | succ m ih =>
    intro s h hlive hsteps hlen
    obtain ⟨i, rest, hi⟩ := List.exists_cons_of_length_pos (Nat.zero_lt_of_lt hlen)
    rw [hi] at hlive hlen
    obtain ⟨⟨hreset, h1, h2⟩, hrest⟩ := List.forall_mem_cons.mp hlive
    obtain ⟨t, hstep, rfl, hdone | ⟨hmid, hlt⟩⟩ := step_progress h hi hreset h1 h2
    · exact ⟨1, t, by omega, runSteps_succ hstep, hdone⟩
    · obtain ⟨n, u, hn, hrun, hdone⟩ := ih hmid hrest (by omega) (Nat.le_of_succ_le_succ hlen)
      exact ⟨n + 1, u, by omega, (runSteps_succ hstep).trans hrun, hdone⟩

/-- Settles O47: from a consistent BUSY state the bound on the steps left is at most 2006 a symbol, and every live step
lowers it or ends the frame. -/
theorem liveClockEndsEveryFrame : Obligations.LiveClockEndsEveryFrame := fun s hinv hbusy hlive hlen => by
  have hmid := midFrame_of_sequencerInv hinv hbusy
  obtain ⟨n, t, hn, hrun, hidle, hdone⟩ := runSteps_frameDone hmid hlive (frameStepsLeft_le hmid) hlen
  exact ⟨n, t, hn, hrun, hidle, hdone⟩

end Sys2Proof.Safety

namespace Sys2Proof.Machine

/-! ### Which registers a micro-step writes (R114) -/

@[simp] theorem microStep_pin (s : State) (sym : Symbol) : (s.microStep sym).pin = s.pin := by
  cases h : s.ph <;> simp [State.microStep, h]

@[simp] theorem microStep_payload (s : State) (sym : Symbol) : (s.microStep sym).payload = s.payload := by
  cases h : s.ph <;> simp [State.microStep, h]

/-- `LTT` is written at the two stamps and nowhere else in a symbol. -/
theorem microStep_ltt (s : State) (sym : Symbol) :
    (s.microStep sym).ltt = if s.ph = .stampA ∨ s.ph = .stampB then s.now else s.ltt := by
  cases h : s.ph <;> simp [State.microStep, h]

/-- The levels are written, on `PIN`, at the two writes and nowhere else in a symbol. -/
theorem microStep_level_cases (s : State) (sym : Symbol) :
    (s.microStep sym).level = s.level ∨
      ((s.ph = .writeA ∨ s.ph = .writeB) ∧ ∃ lv, (s.microStep sym).level = (s.pinWrite s.pin lv).level) := by
  cases h : s.ph with
  | writeA => rw [microStep_writeA sym h]; exact .inr ⟨.inl rfl, _, rfl⟩
  | writeB => rw [microStep_writeB sym h]; exact .inr ⟨.inr rfl, _, rfl⟩
  | waitA | stampA | waitB | stampB => simp [State.microStep, h]

/-- Where a micro-step leaves the sequencer: in its symbol, or after the second stamp IDLE at the end of the frame, else
at the next symbol (R147). -/
theorem microStep_position (s : State) (sym : Symbol) :
    ((s.microStep sym).mode = s.mode ∧ (s.microStep sym).k = s.k) ∨
    (s.ph = .stampB ∧ s.k + 1 = symbolCount s.nlen ∧ (s.microStep sym).mode = .idle) ∨
    (s.ph = .stampB ∧ s.k + 1 ≠ symbolCount s.nlen ∧ (s.microStep sym).mode = s.mode ∧
      (s.microStep sym).k = s.k + 1) := by
  cases h : s.ph with
  | stampB =>
    rw [microStep_stampB sym h]
    obtain ⟨hk, hnext⟩ | ⟨hk, hnext⟩ := nextSymbol_cases s.stamp
    · exact .inr (.inl ⟨rfl, hk, by simp [hnext]⟩)
    · exact .inr (.inr ⟨rfl, hk, by simp [hnext], by simp [hnext]⟩)
  | waitA | writeA | stampA | waitB | writeB => simp [State.microStep, h]

/-! ### What one step does -/

/-- The state in which an idle block runs the host's command `c`: the step's input taken, `c` presented. -/
def State.presented (s : State) (c : Command) : State := s.afterInput.dropCommand.presentBuffer c.buffer

@[simp] theorem presented_pin (s : State) (c : Command) : (s.presented c).pin = s.pin := by simp [State.presented]
@[simp] theorem presented_ltt (s : State) (c : Command) : (s.presented c).ltt = s.ltt := by simp [State.presented]
@[simp] theorem presented_mode (s : State) (c : Command) : (s.presented c).mode = s.mode := by simp [State.presented]
@[simp] theorem presented_level (s : State) (c : Command) : (s.presented c).level = s.level := by
  simp [State.presented]
@[simp] theorem presented_now (s : State) (c : Command) : (s.presented c).now = s.now := by simp [State.presented]

/-- The two commands that start a frame. -/
def startsFrame (i : Instr) : Prop := (∃ n, i = .transmitFrame n) ∨ (∃ v, i = .transmitU16 v)

/-- What one step of the block does before time passes: the five things that can happen, each with the state it leaves
(R23, R147, R210). -/
inductive StepEffect (s : State) : State → Prop
  | reset (asserted : s.nextInput.reset = true) : StepEffect s s.afterInput.resetBlock
  | rest (idle : s.mode = .idle) : StepEffect s s.afterInput
  | configure (c : Command) (more : List Command) (p : PinId) (idle : s.mode = .idle) (first : s.commands = c :: more)
      (decoded : decodeCommand c.word = .setTransmitPin p) :
      StepEffect s ({ s.presented c with pin := p }.pinMode p)
  | accept (c : Command) (more : List Command) (payload : List Byte) (src : PayloadSource) (idle : s.mode = .idle)
      (first : s.commands = c :: more) (decoded : startsFrame (decodeCommand c.word)) :
      StepEffect s ((s.presented c).beginFrame payload src)
  | microStep (sym : Symbol) (busy : s.mode = .busy) : StepEffect s (s.afterInput.microStep sym)

/-- Every step that has a next state is one of the five, then time passes. -/
theorem stepEffect_of_step {s u : State} (h : step s = .next u) :
    ∃ t, u = t.elapse s.nextInput.advance ∧ StepEffect s t := by
  obtain ⟨t, rfl, ht⟩ := step_next h
  refine ⟨t, rfl, ?_⟩
  obtain ⟨hr, rfl⟩ | ⟨-, hm, -, rfl⟩ | ⟨-, hm, c, more, hc, hexec⟩ | ⟨-, hm, sym, -, rfl⟩ := ht
  · exact .reset hr
  · exact .rest hm
  · obtain ⟨p, hi, -, rfl⟩ | ⟨v, hi, -, rfl⟩ | ⟨n, hi, -, rfl⟩ | ⟨sym, -, hbusy, -⟩ := exec_next hexec
    · exact .configure c more p hm hc hi
    · exact .accept c more _ _ hm hc (.inr ⟨v, hi⟩)
    · exact .accept c more _ _ hm hc (.inl ⟨n, hi⟩)
    · simp [hm] at hbusy
  · exact .microStep sym hm

/-! ### Commands and `MODE` (R23) -/

theorem whenIdle_of_idle {s : State} (t : State) (h : s.mode = .idle) : s.whenIdle t = .next t :=
  whenIdle_next.mpr ⟨h, rfl⟩

/-- An accepted command's answer depends on the state before it only through the state it leaves. -/
theorem whenIdle_congr {s t : State} (hs : s.mode = .idle) (ht : t.mode = .idle) (u : State) :
    s.whenIdle u = t.whenIdle u :=
  (whenIdle_of_idle u hs).trans (whenIdle_of_idle u ht).symm

theorem whenIdle_of_busy {s : State} (t : State) (h : s.mode = .busy) : s.whenIdle t = .refused .commandWhileBusy := by
  simp [State.whenIdle, h]

theorem busyFlag_eq_one (s : State) : s.busyFlag = 1#1 ↔ s.mode = .busy := by
  cases h : s.mode <;> simp [State.busyFlag, h]

theorem exec_command_of_busy {s : State} {i : Instr} (hm : s.mode = .busy) (hi : i.hostIssued = true) :
    exec i s = .refused .commandWhileBusy := by
  cases i with
  | setTransmitPin p => exact whenIdle_of_busy _ hm
  | transmitU16 v => exact whenIdle_of_busy _ hm
  | transmitFrame n => exact whenIdle_of_busy _ hm
  | reservedCmd3 a | sendSymbolZero | sendSymbolOne => cases hi

/-- A step from IDLE to BUSY takes a command that starts a frame. -/
theorem step_idle_to_busy {s t : State} (h : step s = .next t) (hs : s.mode = .idle) (ht : t.mode = .busy) :
    ∃ c more, s.commands = c :: more ∧ startsFrame (decodeCommand c.word) := by
  obtain ⟨t, rfl, heffect⟩ := stepEffect_of_step h
  cases heffect with
  | accept c more payload src _ first decoded => exact ⟨c, more, first, decoded⟩
  | reset | rest | configure => simp [hs] at ht
  | microStep sym busy => simp [hs] at busy

/-- A step from BUSY to IDLE is reset or the second stamp of the frame's last symbol. -/
theorem step_busy_to_idle {s t : State} (h : step s = .next t) (hs : s.mode = .busy) (ht : t.mode = .idle) :
    s.nextInput.reset = true ∨ (s.ph = .stampB ∧ s.k + 1 = 17 + 8 * s.nlen) := by
  obtain ⟨t, rfl, heffect⟩ := stepEffect_of_step h
  cases heffect with
  | reset asserted => exact .inl asserted
  | microStep sym busy =>
    obtain ⟨hmode, -⟩ | ⟨hph, hlast, -⟩ | ⟨-, -, hmode, -⟩ := microStep_position s.afterInput sym
    · simp [hmode, hs] at ht
    · exact .inr ⟨by simpa using hph, by simpa [symbolCount_eq] using hlast⟩
    · simp [hmode, hs] at ht
  | rest idle | configure c more p idle | accept c more payload src idle => simp [hs] at idle

/-- Settles O32, the two transitions by the cases of a step. -/
theorem modeChangesOnlyAtAcceptanceAndLastStamp : Obligations.ModeChangesOnlyAtAcceptanceAndLastStamp :=
  ⟨fun _ _ => step_idle_to_busy, fun _ _ => step_busy_to_idle,
    fun _ _ hm => ⟨_, whenIdle_of_idle _ hm, rfl⟩, fun _ _ hm => ⟨_, whenIdle_of_idle _ hm, rfl⟩,
    fun _ _ hm => ⟨_, whenIdle_of_idle _ hm, hm⟩, busyFlag_eq_one, fun _ _ => exec_command_of_busy⟩

/-! ### `PIN` and `LTT` (R21, R22) -/

/-- Settles O33: of the five things a step can do only reset and a configuration write `PIN`. -/
theorem pinChangesOnlyByConfigurationOrReset : Obligations.PinChangesOnlyByConfigurationOrReset := fun s t h hne => by
  obtain ⟨t, rfl, heffect⟩ := stepEffect_of_step h
  cases heffect with
  | reset asserted => exact .inl ⟨asserted, rfl⟩
  | configure c more p idle first decoded => exact .inr ⟨idle, c, more, first, decoded⟩
  | rest | accept | microStep => simp at hne

/-- Settles O34: of the five things a step can do only reset, an acceptance and the two stamps write `LTT`. -/
theorem lttWrittenOnlyAtStartAndStamps : Obligations.LttWrittenOnlyAtStartAndStamps := fun s t h hne => by
  obtain ⟨t, rfl, heffect⟩ := stepEffect_of_step h
  cases heffect with
  | reset asserted => exact .inl asserted
  | accept c more payload src idle => exact .inr (.inl ⟨idle, rfl, congrArg frameStartRef (presented_now s c)⟩)
  | microStep sym busy =>
    by_cases hph : s.ph = .stampA ∨ s.ph = .stampB
    · exact .inr (.inr ⟨busy, hph, by simp [microStep_ltt, hph, State.now]⟩)
    · simp [microStep_ltt, hph] at hne
  | rest | configure => simp at hne

/-! ### The levels (R26, R120) -/

theorem levelOf_congr {s t : State} (h : t.level = s.level) (p : PinId) : t.levelOf p = s.levelOf p := by
  rw [State.levelOf, State.levelOf, h]

/-- A step leaves every level as it was, or makes one write on `PIN`, in BUSY at a write phase. -/
theorem step_level_cases {s t : State} (h : step s = .next t) :
    t.level = s.level ∨
      (s.mode = .busy ∧ (s.ph = .writeA ∨ s.ph = .writeB) ∧ ∃ lv, t.level = (s.pinWrite s.pin lv).level) := by
  obtain ⟨t, rfl, heffect⟩ := stepEffect_of_step h
  cases heffect with
  | microStep sym busy =>
    obtain hlevel | ⟨hph, lv, hlevel⟩ := microStep_level_cases s.afterInput sym
    · exact .inl (by simpa using hlevel)
    · exact .inr ⟨busy, by simpa using hph, lv, by simpa using hlevel⟩
  | reset | rest | configure | accept => simp

/-- Settles O35: a step's only level change is a pin write on `PIN`, which changes no other pin's level. -/
theorem levelsChangeOnlyOnThePin : Obligations.LevelsChangeOnlyOnThePin := fun s t h => by
  obtain hlevel | ⟨hbusy, hph, lv, hlevel⟩ := step_level_cases h
  · exact ⟨fun p _ => levelOf_congr hlevel p, fun hne => absurd (levelOf_congr hlevel s.pin) hne⟩
  · exact ⟨fun p hp => by rw [levelOf_congr hlevel, levelOf_pinWrite, if_neg hp], fun _ => ⟨hbusy, hph⟩⟩

/-! ### Reset, and the registers it leaves unspecified (R30 to R33) -/

/-- Settles O1: both reset states are written out in the model, and neither touches levels or trace. -/
theorem resetLeavesDefaultPinAndNoEvent : Obligations.ResetLeavesDefaultPinAndNoEvent :=
  ⟨⟨rfl, rfl, rfl, rfl, fun _ => rfl⟩, fun _ => ⟨rfl, rfl, rfl, rfl, fun _ => rfl⟩⟩

/-- Settles O3: `beginFrame` writes all five registers and SET_TRANSMIT_PIN none of them. -/
theorem unspecifiedRegistersAreNotRead : Obligations.UnspecifiedRegistersAreNotRead :=
  fun s ltt k ph nlen pbuf hm => by
    have hm' : { s with ltt := ltt, k := k, ph := ph, nlen := nlen, pbuf := pbuf }.mode = .idle := hm
    exact ⟨fun _ => whenIdle_congr hm' hm _, fun _ => whenIdle_congr hm' hm _,
      fun _ => ⟨_, whenIdle_of_idle _ hm, whenIdle_of_idle _ hm'⟩⟩

end Sys2Proof.Machine

namespace Sys2Proof.Safety

open Sys2Proof.Machine

/-! ### The sequencer invariant (R24, R25) -/

/-- While IDLE the invariant asks only for canonical cell lists. -/
theorem sequencerInv_of_idle {s : State} (hpayload : Memory.wf s.payload) (hlevel : cellsWf s.level)
    (hm : s.mode = .idle) : SequencerInv s :=
  ⟨hpayload, hlevel, by simp [hm], by simp [hm]⟩

theorem sequencerInv_elapse {s : State} (h : SequencerInv s) (d : Nat) : SequencerInv (s.elapse d) :=
  ⟨h.payload_wf, h.level_wf, h.nlen_eq, h.k_lt⟩

theorem applyStore_payload_wf {s : State} (h : Memory.wf s.payload) (st : Option (Nat × Byte)) :
    Memory.wf (s.applyStore st).payload := by
  cases st with
  | none => exact h
  | some ib => exact hostStore_payload_wf h ib.1 ib.2

/-- Taking the step's input, its host store made, keeps the invariant: a store changes no length. -/
theorem sequencerInv_afterInput {s : State} (h : SequencerInv s) : SequencerInv s.afterInput :=
  ⟨applyStore_payload_wf (s := s.takeInput) h.payload_wf _, by simpa using h.level_wf, by simpa using h.nlen_eq,
    by simpa using h.k_lt⟩

theorem presented_payload_wf (s : State) (c : Command) : Memory.wf (s.presented c).payload :=
  presentBuffer_payload_wf s.afterInput.dropCommand c.buffer

/-- A frame starts with `NLEN` the length of its payload, at the first of its symbols. -/
theorem sequencerInv_beginFrame {s : State} (hpayload : Memory.wf s.payload) (hlevel : cellsWf s.level)
    (payload : List Byte) (src : PayloadSource) : SequencerInv (s.beginFrame payload src) :=
  ⟨hpayload, hlevel, fun _ => rfl, fun _ => by simp [symbolCount_eq]⟩

theorem microStep_level_wf {s : State} (h : cellsWf s.level) (sym : Symbol) : cellsWf (s.microStep sym).level := by
  obtain hlevel | ⟨-, lv, hlevel⟩ := microStep_level_cases s sym
  · rwa [hlevel]
  · rw [hlevel]; exact pinWrite_level_wf h s.pin lv

/-- A micro-step keeps `K` inside the frame: it goes to the next symbol only where the current one is not the last. -/
theorem microStep_k_lt {s : State} (sym : Symbol) (hk : s.k < symbolCount s.nlen)
    (hm : (s.microStep sym).mode = .busy) : (s.microStep sym).k < symbolCount s.nlen := by
  obtain ⟨-, hk'⟩ | ⟨-, -, hidle⟩ | ⟨-, hnotLast, -, hk'⟩ := microStep_position s sym
  · omega
  · simp [hidle] at hm
  · omega

theorem sequencerInv_microStep {s : State} (h : SequencerInv s) (hm : s.mode = .busy) (sym : Symbol) :
    SequencerInv (s.microStep sym) where
  payload_wf := by simpa using h.payload_wf
  level_wf := microStep_level_wf h.level_wf sym
  nlen_eq _ := by simpa using h.nlen_eq hm
  k_lt hbusy := by simpa using microStep_k_lt sym (h.k_lt hm) hbusy

/-- Settles O38, by what a step can do. -/
theorem sequencerInvKept : Obligations.SequencerInvKept := fun s t hinv h => by
  obtain ⟨t, rfl, heffect⟩ := stepEffect_of_step h
  have hinv' := sequencerInv_afterInput hinv
  refine sequencerInv_elapse ?_ _
  cases heffect with
  | reset => exact sequencerInv_of_idle hinv'.payload_wf hinv'.level_wf rfl
  | rest => exact hinv'
  | configure c more p idle =>
    exact sequencerInv_of_idle (presented_payload_wf s c) hinv'.level_wf (by simpa using idle)
  | accept c more payload src => exact sequencerInv_beginFrame (presented_payload_wf s c) hinv'.level_wf payload src
  | microStep sym busy => exact sequencerInv_microStep hinv' (by simpa using busy) sym

/-! ### The invariants at power-on (R32, R33) -/

/-- Settles O37: power-on is IDLE with both cell lists empty. -/
theorem sequencerInvAtReset : Obligations.SequencerInvAtReset :=
  sequencerInv_of_idle reset_payload_wf reset_level_wf rfl

/-- At power-on no frame has been accepted. -/
theorem frameRecord_reset : frameRecord State.reset.trace = FrameRecord.empty := rfl

/-- Settles O39: power-on is IDLE, where the waveform invariant asks nothing of the trace. -/
theorem waveformInvAtReset : Obligations.WaveformInvAtReset where
  sequencer := sequencerInvAtReset
  writes := nofun
  not_done := nofun
  last_level := nofun

/-- Settles O41: power-on is IDLE and its frame record is empty. -/
theorem timingInvAtReset : Obligations.TimingInvAtReset where
  writes_spaced := by rw [frameRecord_reset]; exact List.Pairwise.nil
  stamps_spaced := by rw [frameRecord_reset]; exact List.Pairwise.nil
  first_write := by rw [frameRecord_reset]; exact nofun
  done_time := by rw [frameRecord_reset]; exact nofun
  running := nofun

end Sys2Proof.Safety

namespace Sys2Proof.Machine

/-! ### The payload is captured by value (R51) -/

/-- The byte captured at an index below the length. -/
theorem capturePayload_getElem? (s : State) {n i : Nat} (h : i < n) :
    (s.capturePayload n)[i]? = some (s.payloadByte i) := by
  simp [State.capturePayload, h]

/-- A listed payload byte is the one read. -/
theorem payloadByte_of_readCell {s : State} {i : Nat} {b : Byte} (h : readCell s.payload i = some b) :
    s.payloadByte i = b := by
  rw [State.payloadByte, h, Option.getD_some]

/-- Payload spaces that agree below the length give the same capture. -/
theorem capturePayload_congr {s : State} {n : Nat} {m : Memory} (h : ∀ i, i < n → readCell m i = readCell s.payload i) :
    { s with payload := m }.capturePayload n = s.capturePayload n :=
  List.map_congr_left fun i hi =>
    congrArg (·.getD (Config.unsetPayload s.steps i)) (h i (List.mem_range.mp hi))

theorem exec_transmitFrame {s : State} (h : s.mode = .idle) (n : Nat) :
    exec (.transmitFrame n) s = .next (s.beginFrame (s.capturePayload n) .hostBuffer) :=
  whenIdle_of_idle _ h

theorem exec_transmitU16 {s : State} (h : s.mode = .idle) (v : BitVec 16) :
    exec (.transmitU16 v) s = .next (s.beginFrame (splitU16 v) .operand) :=
  whenIdle_of_idle _ h

/-- TRANSMIT_FRAME given with its buffer starts the frame of that buffer. -/
theorem exec_transmitFrame_presentBuffer {s : State} (h : s.mode = .idle) (buffer : List Byte) :
    exec (.transmitFrame buffer.length) (s.presentBuffer buffer) =
      .next ((s.presentBuffer buffer).beginFrame buffer .hostBuffer) := by
  rw [exec_transmitFrame (s := s.presentBuffer buffer) h, capturePayload_presentBuffer]

/-- A step that takes TRANSMIT_FRAME with its buffer starts the frame of that buffer, then time passes. -/
theorem step_transmitFrame {s : State} {c : Command} {rest : List Command} (hm : s.mode = .idle)
    (hr : s.nextInput.reset = false) (hc : s.commands = c :: rest)
    (hd : decodeCommand c.word = .transmitFrame c.buffer.length) :
    step s = .next (((s.presented c).beginFrame c.buffer .hostBuffer).elapse s.nextInput.advance) := by
  rw [step_command hr hm hc, hd, exec_transmitFrame_presentBuffer (by simpa using hm)]
  rfl

/-- Settles O10: capture reads the payload space at the indices below `N` and nowhere else. -/
theorem payloadCapturedByValue : Obligations.PayloadCapturedByValue := by
  refine ⟨fun s c rest hm hr hc hd => ?_, fun s n i b hm hi hb => ?_, fun s n m hm hagree => ?_⟩
  · exact ⟨_, step_transmitFrame hm hr hc hd, rfl, rfl, rfl⟩
  · refine ⟨_, exec_transmitFrame hm n, ?_⟩
    rw [beginFrame_pbuf, capturePayload_getElem? s hi, payloadByte_of_readCell hb]
  · refine ⟨_, exec_transmitFrame hm n, ?_⟩
    rw [exec_transmitFrame (s := { s with payload := m }) hm, capturePayload_congr hagree]
    rfl

/-! ### TRANSMIT_U16 is a two-byte frame (R52, R88, R148) -/

/-- The split by value: the quotient by 256, then the remainder. -/
theorem splitU16_eq (v : BitVec 16) :
    splitU16 v = [BitVec.ofNat 8 (v.toNat / 256), BitVec.ofNat 8 (v.toNat % 256)] := by
  have hhigh : v.extractLsb' 8 8 = BitVec.ofNat 8 (v.toNat / 256) := by
    rw [BitVec.extractLsb', Nat.shiftRight_eq_div_pow]
  have hlow : v.extractLsb' 0 8 = BitVec.ofNat 8 (v.toNat % 256) := by
    apply BitVec.eq_of_toNat_eq
    simp
  rw [splitU16, hhigh, hlow]

/-- Settles O9: both commands begin the same frame, with the split as payload. -/
theorem transmitU16IsTheTwoByteFrame : Obligations.TransmitU16IsTheTwoByteFrame := fun s v hm =>
  ⟨_, exec_transmitU16 hm v, splitU16_eq v, exec_transmitFrame_presentBuffer hm (splitU16 v), by rintro rfl; rfl⟩

/-! ### Bits on the line (R53) -/

/-- Bit `j` of byte `i` is payload symbol `8*i + j`. -/
theorem payloadSymbol_bit (p : List Byte) {i j : Nat} (hi : i < p.length) (hj : j < 8) :
    payloadSymbol p (8 * i + j) = some (selSymbol (p[i].getLsbD j)) := by
  have hdiv : (8 * i + j) / 8 = i := by omega
  have hmod : (8 * i + j) % 8 = j := by omega
  rw [payloadSymbol, bitsPerByte_eq, hdiv, hmod, List.getElem?_eq_getElem hi, Option.map_some]

/-- Bit `j` of byte `i` is symbol `15 + 8*i + j` of the frame. -/
theorem frameSymbol_bit (p : List Byte) {i j : Nat} (hi : i < p.length) (hj : j < 8) :
    frameSymbol p (15 + 8 * i + j) = some (selSymbol (p[i].getLsbD j)) := by
  rw [frameSymbol_payload p (by omega) (by omega), Nat.add_assoc, Nat.add_sub_cancel_left, payloadSymbol_bit p hi hj]

/-- Settles O19: the two bytes of TRANSMIT_U16 are bits 8 to 15 and bits 0 to 7 of its operand. -/
theorem bytesInOrderBitsLowFirst : Obligations.BytesInOrderBitsLowFirst := by
  refine ⟨fun p i j hi hj => frameSymbol_bit p hi hj, fun v j hj => ⟨?_, ?_⟩⟩
  · have hbit := frameSymbol_bit (splitU16 v) (i := 0) (by simp [splitU16]) hj
    simpa [splitU16, hj] using hbit
  · have hbit := frameSymbol_bit (splitU16 v) (i := 1) (by simp [splitU16]) hj
    simpa [splitU16, hj] using hbit

/-! ### Host stores (R59, R214) -/

/-- Outside a frame of the host's buffer, and once the byte's first pin write is made, a host store leaves `PBUF`. -/
theorem hostStore_pbuf_of_not_exposed {s : State} {i : Nat} (b : Byte)
    (h : s.mode = .idle ∨ s.psrc = .operand ∨ ¬ s.byteUnsent i = true) : (s.hostStore i b).pbuf = s.pbuf := by
  obtain hkept | ⟨hbusy, hhost, hunsent, -⟩ := hostStore_pbuf_cases s i b
  · exact hkept
  · simp [hbusy, hhost, hunsent] at h

/-- A byte is not unsent at a later position, nor at its own first symbol once that symbol's first write is made. -/
theorem not_byteUnsent_of_written {s : State} {i : Nat}
    (h : 15 + 8 * i < s.k ∨ (s.k = 15 + 8 * i ∧ s.ph ≠ .waitA ∧ s.ph ≠ .writeA)) : ¬ s.byteUnsent i = true := by
  rw [byteUnsent_iff]
  rintro (hbefore | ⟨hat, hph⟩)
  · omega
  · obtain hlater | ⟨-, hA, hW⟩ := h
    · omega
    · exact hph.elim hA hW

/-- Settles O30: a store writes one cell of the payload space, and `PBUF` only at a byte still unsent. -/
theorem hostStoreRacesOnlyWithUnsentBytes : Obligations.HostStoreRacesOnlyWithUnsentBytes := fun s i b =>
  ⟨(hostStore_pbuf_cases s i b).imp_right fun ⟨_, _, _, hset⟩ => hset,
    fun h => hostStore_pbuf_of_not_exposed b (h.imp_right (Or.imp_right not_byteUnsent_of_written)),
    fun a => readCell_writeCell s.payload i a b, rfl⟩

end Sys2Proof.Machine

namespace Sys2Proof.Safety

open Sys2Proof.Machine

/-! ### The selected pin (R57 (c), R171) -/

/-- A longer trace and the same `PIN` keep the invariant. -/
theorem pinSelectedInv_of_append {s t : State} {events : Trace} (h : PinSelectedInv s) (hpin : t.pin = s.pin)
    (htrace : t.trace = s.trace ++ events) : PinSelectedInv t := by
  rw [PinSelectedInv, hpin, htrace, List.map_append]
  exact h.imp_right (List.mem_append_left _)

/-- A configuration records the `PinMode` of the pin it selects. -/
theorem pinSelectedInv_configure (s : State) (p : PinId) : PinSelectedInv ({ s with pin := p }.pinMode p) :=
  .inr (by simp)

/-- Settles O44: reset selects the default pin, a configuration records its `PinMode`, and nothing else writes `PIN`. -/
theorem pinSelectedInvKept : Obligations.PinSelectedInvKept := fun s t hinv h => by
  obtain ⟨-, events, htrace, -⟩ := step_time_trace h
  obtain ⟨t, rfl, heffect⟩ := stepEffect_of_step h
  cases heffect with
  | reset => exact .inl rfl
  | configure c more p => exact pinSelectedInv_configure (s.presented c) p
  | rest | accept | microStep => exact pinSelectedInv_of_append hinv (by simp) htrace

end Sys2Proof.Safety

namespace Sys2Proof.Machine

/-- Changing byte `i` changes none of the levels before its first symbol's. -/
theorem frameLevels_set_take (p : List Byte) {i n : Nat} (b : Byte) (h : n ≤ 2 * (15 + 8 * i)) :
    (frameLevels (p.set i b)).take n = (frameLevels p).take n := by
  refine List.ext_getElem? fun j => ?_
  rw [List.getElem?_take, List.getElem?_take]
  by_cases hj : j < n
  · rw [if_pos hj, if_pos hj]
    obtain ⟨k, rfl | rfl⟩ := Nat.even_or_odd' j
    · rw [frameLevels_first, frameLevels_first, frameSymbol_set p i k b (by omega)]
    · rw [frameLevels_second, frameLevels_second, frameSymbol_set p i k b (by omega)]
  · rw [if_neg hj, if_neg hj]

end Sys2Proof.Machine

namespace Sys2Proof.Safety

open Sys2Proof.Machine

/-! ### The waveform invariant (R86, R140, R147) -/

/-- What the waveform invariant says of the running frame, without its premise that the block is BUSY. -/
structure FrameWaveform (s : State) : Prop where
  writes : (frameRecord s.trace).levels = ((frameLevels s.pbuf).take (writesMade s)).map fun lv => (s.pin, lv)
  not_done : (frameRecord s.trace).doneAt = none
  last_level : ∀ w, (frameRecord s.trace).levels.getLast? = some w → s.levelOf s.pin = some w.2

theorem frameWaveform_of_waveformInv {s : State} (h : WaveformInv s) (hm : s.mode = .busy) : FrameWaveform s :=
  ⟨h.writes hm, h.not_done hm, h.last_level hm⟩

theorem waveformInv_of_frameWaveform {s : State} (hseq : SequencerInv s) (h : s.mode = .busy → FrameWaveform s) :
    WaveformInv s :=
  ⟨hseq, fun hm => (h hm).writes, fun hm => (h hm).not_done, fun hm => (h hm).last_level⟩

theorem frameWaveform_elapse {s : State} (h : FrameWaveform s) (d : Nat) : FrameWaveform (s.elapse d) :=
  ⟨h.writes, h.not_done, h.last_level⟩

theorem writesIn_le_two (ph : Phase) : writesIn ph ≤ 2 := by
  cases ph <;> decide

/-- The pin writes made all come before those of a byte that is not sent yet (R59). -/
theorem writesMade_le_of_byteUnsent {s : State} {i : Nat} (h : s.byteUnsent i = true) :
    writesMade s ≤ 2 * (15 + 8 * i) := by
  have hle := writesIn_le_two s.ph
  unfold writesMade
  obtain hbefore | ⟨hat, hph | hph⟩ := (byteUnsent_iff s i).mp h
  · omega
  · rw [hph, hat]; exact Nat.le_refl _
  · rw [hph, hat]; exact Nat.le_refl _

theorem afterInput_writesMade (s : State) : writesMade s.afterInput = writesMade s := by
  simp [writesMade]

/-- A host store of the step may change what is still to be sent, never a level already written. -/
theorem afterInput_levelsMade (s : State) :
    (frameLevels s.afterInput.pbuf).take (writesMade s) = (frameLevels s.pbuf).take (writesMade s) := by
  obtain hkept | ⟨i, b, -, -, hunsent, hset⟩ := afterInput_pbuf_cases s
  · rw [hkept]
  · rw [hset, frameLevels_set_take s.pbuf b (writesMade_le_of_byteUnsent hunsent)]

theorem frameWaveform_afterInput {s : State} (h : FrameWaveform s) : FrameWaveform s.afterInput where
  writes := by rw [afterInput_writesMade, afterInput_levelsMade, afterInput_trace, afterInput_pin, h.writes]
  not_done := by rw [afterInput_trace, h.not_done]
  last_level := by
    rw [afterInput_trace, afterInput_pin, levelOf_congr (afterInput_level s)]
    exact h.last_level

/-- An accepted frame has made no pin write. -/
theorem frameWaveform_beginFrame (s : State) (payload : List Byte) (src : PayloadSource) :
    FrameWaveform (s.beginFrame payload src) where
  writes := by simp [FrameRecord.levels, writesMade, writesIn]
  not_done := by simp
  last_level := by simp [FrameRecord.levels]

/-- A clock read that moves the position past no pin write keeps what is said of the frame. -/
theorem frameWaveform_clockRead {s t : State} {c : Time} (h : FrameWaveform s)
    (htrace : t.trace = s.trace ++ [(s.time, .clockRead c)]) (hpin : t.pin = s.pin) (hpbuf : t.pbuf = s.pbuf)
    (hlevel : t.level = s.level) (hmade : writesMade t = writesMade s) : FrameWaveform t := by
  have hlevels : (frameRecord t.trace).levels = (frameRecord s.trace).levels := by simp [htrace, FrameRecord.levels]
  refine ⟨?_, ?_, ?_⟩
  · rw [hlevels, hpbuf, hmade, hpin, h.writes]
  · simpa [htrace] using h.not_done
  · rw [hlevels, hpin, levelOf_congr hlevel]
    exact h.last_level

/-- A pin write of the frame's next level, on `PIN`, with the position moved past it, keeps what is said of the frame. -/
theorem frameWaveform_pinWrite {s : State} {lv : Level} {ph : Phase} (h : FrameWaveform s)
    (hnext : (frameLevels s.pbuf)[writesMade s]? = some lv)
    (hmade : writesMade ((s.pinWrite s.pin lv).goPhase ph) = writesMade s + 1) :
    FrameWaveform ((s.pinWrite s.pin lv).goPhase ph) := by
  have hlevels : (frameRecord ((s.pinWrite s.pin lv).goPhase ph).trace).levels =
      (frameRecord s.trace).levels ++ [(s.pin, lv)] := by simp [FrameRecord.levels]
  refine ⟨?_, ?_, fun w hw => ?_⟩
  · rw [hlevels, hmade, h.writes, goPhase_pbuf, pinWrite_pbuf, List.take_add_one, hnext, List.map_append]
    rfl
  · simpa using h.not_done
  · rw [hlevels, List.getLast?_concat, Option.some_inj] at hw
    subst hw
    exact (levelOf_pinWrite s s.pin s.pin lv).trans (if_pos rfl)

/-- Each micro-step of the symbol at the position keeps what is said of the frame, while it runs. -/
theorem frameWaveform_microStep {s : State} {sym : Symbol} (h : FrameWaveform s)
    (hsym : frameSymbol s.pbuf s.k = some sym) (hbusy : (s.microStep sym).mode = .busy) :
    FrameWaveform (s.microStep sym) := by
  cases hph : s.ph with
  | waitA =>
    rw [microStep_waitA sym hph]
    refine frameWaveform_clockRead h rfl rfl rfl rfl ?_
    by_cases hw : waitOver s.now s.ltt = true <;> simp [writesMade, writesIn, hph, hw]
  | waitB =>
    rw [microStep_waitB sym hph]
    refine frameWaveform_clockRead h rfl rfl rfl rfl ?_
    by_cases hw : waitOver s.now s.ltt = true <;> simp [writesMade, writesIn, hph, hw]
  | writeA =>
    rw [microStep_writeA sym hph]
    refine frameWaveform_pinWrite h ?_ (by simp [writesMade, writesIn, hph])
    simp [writesMade, writesIn, hph, frameLevels_first, hsym]
  | writeB =>
    rw [microStep_writeB sym hph]
    refine frameWaveform_pinWrite h ?_ (by simp [writesMade, writesIn, hph])
    simp [writesMade, writesIn, hph, frameLevels_second, hsym]
  | stampA =>
    rw [microStep_stampA sym hph]
    exact frameWaveform_clockRead h rfl rfl rfl rfl (by simp [writesMade, writesIn, hph])
  | stampB =>
    rw [microStep_stampB sym hph] at hbusy ⊢
    obtain ⟨-, hnext⟩ | ⟨-, hnext⟩ := nextSymbol_cases s.stamp
    · simp [hnext] at hbusy
    · rw [hnext]
      refine frameWaveform_clockRead h rfl rfl rfl rfl ?_
      simp [writesMade, writesIn, hph, Nat.mul_add]

/-- A command that leaves the idle block BUSY has started a frame. -/
theorem frameWaveform_of_exec {i : Instr} {s t : State} (h : exec i s = .next t) (hm : s.mode = .idle)
    (hbusy : t.mode = .busy) : FrameWaveform t := by
  obtain ⟨p, -, -, rfl⟩ | ⟨v, -, -, rfl⟩ | ⟨n, -, -, rfl⟩ | ⟨sym, -, hm', -⟩ := exec_next h
  · simp [hm] at hbusy
  · exact frameWaveform_beginFrame s _ _
  · exact frameWaveform_beginFrame s _ _
  · simp [hm] at hm'

/-- A step that leaves the block BUSY has started a frame or made a micro-step of the running one. -/
theorem frameWaveform_of_step {s t : State} (hinv : WaveformInv s) (h : step s = .next t) (hbusy : t.mode = .busy) :
    FrameWaveform t := by
  obtain ⟨t, rfl, ht⟩ := step_next h
  refine frameWaveform_elapse ?_ _
  obtain ⟨-, rfl⟩ | ⟨-, hm, -, rfl⟩ | ⟨-, hm, c, rest, -, hexec⟩ | ⟨-, hm, sym, hsym, rfl⟩ := ht
  · simp at hbusy
  · simp [hm] at hbusy
  · exact frameWaveform_of_exec hexec (by simpa using hm) hbusy
  · have hframe := frameWaveform_afterInput (frameWaveform_of_waveformInv hinv hm)
    exact frameWaveform_microStep hframe (by simpa using hsym) hbusy

/-- Settles O40: the sequencer's part is its own invariant; the frame's part holds of the frame just accepted, and every
micro-step, after whatever the host stores, keeps it. -/
theorem waveformInvKept : Obligations.WaveformInvKept := fun s t hinv h =>
  waveformInv_of_frameWaveform (sequencerInvKept s t hinv.sequencer h) (frameWaveform_of_step hinv h)

end Sys2Proof.Safety

namespace Sys2Proof

/-! ### Command words and symbol codes (R81 to R83) -/

/-- A two-bit operation code is one of the four of R82. -/
theorem operationCode_cases (op : BitVec 2) : op = 0b00#2 ∨ op = 0b01#2 ∨ op = 0b10#2 ∨ op = 0b11#2 := by
  revert op
  decide

/-- A length the argument field can hold is read back from it. -/
theorem toNat_ofNat_of_wf {n : Nat} (h : (Instr.transmitFrame n).wf = true) : (BitVec.ofNat 16 n).toNat = n := by
  rw [wf_transmitFrame] at h
  exact Nat.mod_eq_of_lt (by omega)

/-- Settles O48, by the instruction: each is put together from its operation code and its argument. -/
theorem decodeOfEncode : Obligations.DecodeOfEncode := fun i h => by
  cases i with
  | setTransmitPin pin => exact decodeCommand_append 0b00#2 pin
  | transmitU16 value => exact decodeCommand_append 0b01#2 value
  | transmitFrame length =>
    calc decode (encode (.transmitFrame length))
      _ = .transmitFrame (BitVec.ofNat 16 length).toNat := decodeCommand_append 0b10#2 (BitVec.ofNat 16 length)
      _ = .transmitFrame length := by rw [toNat_ofNat_of_wf h]
  | reservedCmd3 arg => exact decodeCommand_append 0b11#2 arg
  | sendSymbolZero => rfl
  | sendSymbolOne => rfl

/-- The command a word put together from its fields names is encoded as that word again. -/
theorem encode_decodeCommand_append (op : BitVec 2) (arg : BitVec 16) :
    encode (decodeCommand (op ++ arg)) = commandWord op arg := by
  rw [decodeCommand_append]
  obtain rfl | rfl | rfl | rfl := operationCode_cases op
  · rfl
  · rfl
  · exact congrArg (commandWord 0b10#2) ((BitVec.ofNat_toNat 16 arg).trans (BitVec.setWidth_eq arg))
  · rfl

/-- Every command word names a well-formed instruction: an argument field holds no length above `LEN_MAX`. -/
theorem decodeCommand_append_wf (op : BitVec 2) (arg : BitVec 16) : (decodeCommand (op ++ arg)).wf = true := by
  rw [decodeCommand_append]
  obtain rfl | rfl | rfl | rfl := operationCode_cases op
  · rfl
  · rfl
  · exact (wf_transmitFrame arg.toNat).mpr (Nat.le_of_lt_succ arg.isLt)
  · rfl

/-- Settles O49: a command word is its two fields put together, and there are two symbol codes. -/
theorem encodeOfDecode : Obligations.EncodeOfDecode := fun w => by
  cases w with
  | command cw =>
    rw [decode, ← append_fields cw]
    exact ⟨encode_decodeCommand_append _ _, decodeCommand_append_wf _ _⟩
  | symbol code => obtain rfl | rfl := BitVec.eq_zero_or_eq_one code <;> exact ⟨rfl, rfl⟩

/-- An operation code is recognised by its number. -/
theorem opField_eq_iff (cw : CmdWord) (op : BitVec 2) : opField cw = op ↔ cw.toNat / 65536 = op.toNat := by
  rw [← BitVec.toNat_inj, opField_toNat]

theorem argField_eq_ofNat (cw : CmdWord) : argField cw = BitVec.ofNat 16 cw.toNat :=
  BitVec.eq_of_toNat_eq (by rw [argField_toNat, BitVec.toNat_ofNat])

/-- Settles O50: the decoder's tests on the operation field, read as tests on the word divided by `2^16`. -/
theorem commandNamedByOperationCode : Obligations.CommandNamedByOperationCode := fun cw => by
  simp only [decodeCommand, opField_eq_iff, argField_eq_ofNat]
  rfl

/-! ### The byte decoder (R80, log 9) -/

/-- The two low bits of the last byte and the two bytes below it are the 18-bit word with the first byte lowest. -/
theorem append_bytes_eq_ofNat (b0 b1 b2 : Byte) :
    b2.extractLsb' 0 2 ++ (b1 ++ b0) = BitVec.ofNat 18 (b0.toNat + 256 * b1.toNat + 65536 * b2.toNat) := by
  have h0 := b0.isLt
  have h1 := b1.isLt
  apply BitVec.eq_of_toNat_eq
  rw [BitVec.toNat_append, ← Nat.shiftLeft_add_eq_or_of_lt (b1 ++ b0).isLt, BitVec.toNat_append,
    ← Nat.shiftLeft_add_eq_or_of_lt h0, BitVec.extractLsb'_toNat, BitVec.toNat_ofNat, Nat.shiftRight_zero,
    Nat.shiftLeft_eq, Nat.shiftLeft_eq]
  omega

theorem decodeBytes_cmd_of_lt {b0 b1 b2 : Byte} (h : b2.toNat < 4) : decodeBytes .cmd [b0, b1, b2] =
    .ok (decodeCommand (BitVec.ofNat 18 (b0.toNat + 256 * b1.toNat + 65536 * b2.toNat))) := by
  rw [decodeBytes, if_pos h, append_bytes_eq_ofNat]

theorem decodeBytes_sym_of_lt {b0 : Byte} (h : b0.toNat < 2) :
    decodeBytes .sym [b0] = .ok (decodeSymbol (BitVec.ofNat 1 b0.toNat)) := by
  rw [decodeBytes, if_pos h, BitVec.extractLsb', Nat.shiftRight_zero]

theorem decodeBytes_cmd_wrongLength {bytes : List Byte} (h : bytes.length ≠ 3) :
    decodeBytes .cmd bytes = .error .wrongLength := by
  match bytes, h with
  | [], _ => rfl
  | [_], _ => rfl
  | [_, _], _ => rfl
  | _ :: _ :: _ :: _ :: _, _ => rfl

theorem decodeBytes_sym_wrongLength {bytes : List Byte} (h : bytes.length ≠ 1) :
    decodeBytes .sym bytes = .error .wrongLength := by
  match bytes, h with
  | [], _ => rfl
  | _ :: _ :: _, _ => rfl

/-- Settles O51, by the format and the number of bytes. -/
theorem byteDecoderAcceptsExactlyTheWords : Obligations.ByteDecoderAcceptsExactlyTheWords :=
  ⟨fun _ _ _ => decodeBytes_cmd_of_lt, fun _ _ _ h => if_neg (Nat.not_lt.mpr h),
    fun _ => decodeBytes_sym_of_lt, fun _ h => if_neg (Nat.not_lt.mpr h),
    fun _ => decodeBytes_cmd_wrongLength, fun _ => decodeBytes_sym_wrongLength⟩

/-- Settles O52: each word is decoded by evaluation. -/
theorem vectorWordsDecode : Obligations.VectorWordsDecode := by
  unfold Obligations.VectorWordsDecode
  decide

end Sys2Proof

namespace Sys2Proof.Machine

/-! ### The line code (R83, R84) -/

/-- Settles O14: the selection and the codes are written out in the model. -/
theorem dataBitSelectsSymbol : Obligations.DataBitSelectsSymbol := ⟨rfl, rfl, rfl, rfl, rfl, rfl⟩

/-- Every symbol has a level change at its middle. -/
theorem levelBit_secondLevel (s : Symbol) : levelBit (secondLevel s) = ~~~ levelBit (firstLevel s) := by
  cases s <;> decide

/-- Settles O15: the table's entries, then the opposite halves. -/
theorem lineCodeOfSymbols : Obligations.LineCodeOfSymbols :=
  ⟨⟨rfl, rfl, rfl, rfl⟩, ⟨rfl, rfl, rfl, rfl⟩, levelBit_secondLevel⟩

/-! ### The frame by segments and by index (R85 to R87) -/

/-- The eight symbols of a byte, its least significant bit first (R144). -/
def byteSymbols (b : Byte) : List Symbol := (List.range 8).map fun j => selSymbol (b.getLsbD j)

theorem byteSymbols_length (b : Byte) : (byteSymbols b).length = 8 := rfl

theorem byteSymbols_getElem? (b : Byte) {j : Nat} (h : j < 8) :
    (byteSymbols b)[j]? = some (selSymbol (b.getLsbD j)) := by
  simp [byteSymbols, h]

/-- The symbols of the bytes in a row are the payload symbols (R87). -/
theorem flatMap_byteSymbols_getElem? (p : List Byte) (j : Nat) : (p.flatMap byteSymbols)[j]? = payloadSymbol p j := by
  induction p generalizing j with
  | nil => simp [payloadSymbol]
  | cons b rest ih =>
    rw [List.flatMap_cons]
    obtain hj | hj := Nat.lt_or_ge j 8
    · rw [List.getElem?_append_left (by rwa [byteSymbols_length]), byteSymbols_getElem? b hj]
      simp [payloadSymbol, Nat.div_eq_of_lt hj, Nat.mod_eq_of_lt hj]
    · obtain ⟨m, rfl⟩ := Nat.exists_eq_add_of_le' hj
      rw [List.getElem?_append_right (by rwa [byteSymbols_length]), byteSymbols_length, Nat.add_sub_cancel, ih]
      simp [payloadSymbol]

theorem flatMap_byteSymbols_length (p : List Byte) : (p.flatMap byteSymbols).length = 8 * p.length := by
  simp [List.length_flatMap, byteSymbols_length, Nat.mul_comm]

/-- The symbol at an index, by the four segments laid end to end (R85). -/
theorem segments_getElem? (p : List Byte) (k : Nat) :
    (List.replicate 14 .zero ++ [.one] ++ p.flatMap byteSymbols ++ List.replicate 2 .zero)[k]? = frameSymbol p k := by
  simp only [List.getElem?_append, List.length_append, List.length_replicate, List.length_singleton,
    List.getElem?_replicate, flatMap_byteSymbols_length, flatMap_byteSymbols_getElem?]
  split_ifs with hframe hhead hpreamble hterm
  · exact (frameSymbol_preamble p hpreamble).symm
  · obtain rfl : k = 14 := by omega
    exact (frameSymbol_start p).symm
  · exact (frameSymbol_payload p (by omega) (by omega)).symm
  · exact (frameSymbol_terminator p (by omega) (by omega)).symm
  · exact (frameSymbol_past p (by omega)).symm

/-- Settles O16: the four segments laid end to end have the frame's symbol at every index. -/
theorem frameIsPreambleStartPayloadTerminator : Obligations.FrameIsPreambleStartPayloadTerminator := fun p =>
  ⟨List.ext_getElem? fun k => (frameSymbols_getElem? p k).trans (segments_getElem? p k).symm,
    (frameSymbols_length p).trans (symbolCount_eq _), by rw [frameLevels_length, symbolCount_eq]; omega⟩

/-- Settles O17: the frame's segments, index by index, and two levels a symbol. -/
theorem frameAsAFunctionOfTheIndex : Obligations.FrameAsAFunctionOfTheIndex := fun p k => by
  have hsymbol := frameSymbols_getElem? p k
  refine ⟨?_, by rw [frameLevels_first, hsymbol], by rw [frameLevels_second, hsymbol]⟩
  rw [hsymbol]
  split_ifs with h1 h2 h3 h4
  · exact frameSymbol_preamble p (by omega)
  · rw [h2, frameSymbol_start]
  · rw [frameSymbol_payload p (by omega) (by omega)]
    rfl
  · exact frameSymbol_terminator p (by omega) (by omega)
  · exact frameSymbol_past p (by omega)

/-- Masking out the bit moved to place 0 reads it. -/
theorem shiftRight_and_one_eq_one_iff (b : Byte) (n : Nat) : (b >>> n) &&& 1#8 = 1#8 ↔ b.getLsbD n = true := by
  rw [BitVec.and_one_eq_setWidth_ofBool_getLsbD, BitVec.getLsbD_ushiftRight, Nat.add_zero]
  cases b.getLsbD n <;> decide

/-- Payload symbol `j` by the rule's formula (R87). -/
theorem payloadSymbol_eq_mask (p : List Byte) {j : Nat} (h : j / 8 < p.length) :
    payloadSymbol p j = some (if (p[j / 8] >>> (j % 8)) &&& 1#8 = 1#8 then .one else .zero) := by
  simp only [shiftRight_and_one_eq_one_iff]
  rw [payloadSymbol, bitsPerByte_eq, List.getElem?_eq_getElem h, Option.map_some]
  rfl

/-- Settles O18: the formula for every index, the four example bytes by evaluation. -/
theorem payloadSymbolIsBitOfByte : Obligations.PayloadSymbolIsBitOfByte := by
  refine ⟨fun p j hj => ⟨?_, payloadSymbol_eq_mask p (by omega)⟩, by decide, by decide, by decide, by decide⟩
  rw [frameSymbol_payload p (by omega) (by omega), Nat.add_sub_cancel_left]

/-! ### The step of an idle block (R15, R51, R81) -/

/-- While IDLE the step's input reaches only the host's side: the inputs and the payload space. -/
theorem afterInput_of_idle {s : State} (h : s.mode = .idle) :
    s.afterInput = { s with inputs := s.inputs.tail, payload := s.afterInput.payload } := by
  unfold State.afterInput
  cases s.nextInput.store with
  | none => rfl
  | some ib =>
    have hpbuf := hostStore_pbuf_idle s.takeInput ib.1 ib.2 h
    calc s.takeInput.hostStore ib.1 ib.2
      _ = { s.takeInput.hostStore ib.1 ib.2 with pbuf := (s.takeInput.hostStore ib.1 ib.2).pbuf } := rfl
      _ = _ := by rw [hpbuf]; rfl

/-- The state in which an idle block runs its first command: that command and the step's input are off their lists, and
the payload space holds the command's buffer, whatever the host stored at the step. -/
theorem presented_of_idle {s : State} {c : Command} {rest : List Command} (hm : s.mode = .idle)
    (hc : s.commands = c :: rest) :
    s.presented c = { s with inputs := s.inputs.tail, commands := rest, payload := cellsFrom 0 c.buffer } := by
  rw [State.presented, afterInput_of_idle hm, State.dropCommand, hc]
  rfl

/-- Settles O27: the block steps from the state in which the command is presented, written out field by field. -/
theorem stepRunsTheDecodedCommand : Obligations.StepRunsTheDecodedCommand := fun s c rest hm hr hc => by
  rw [step_command hr hm hc, ← presented_of_idle hm hc]
  rfl

end Sys2Proof.Machine

namespace Sys2Proof.Safety

open Sys2Proof.Machine

/-! ### The timer on true times (R111, R116, R217) -/

/-- A wait over at `r` with a reference `σ ≤ r`: a whole Half-Bit Interval has passed, however often the clock wrapped. -/
theorem add_interval_le_of_waitOver {σ r : Nat} (hle : σ ≤ r)
    (h : waitOver (BitVec.ofNat 32 r) (BitVec.ofNat 32 σ) = true) : σ + 1000 ≤ r := by
  rw [waitOver_iff_mod, BitVec.toNat_ofNat, BitVec.toNat_ofNat] at h
  omega

/-- Before the clock comes round to the reference again, a wait is over a whole Half-Bit Interval after it. -/
theorem waitOver_of_add_interval_le {σ r : Nat} (hlt : r < σ + 2 ^ 32) (h : σ + 1000 ≤ r) :
    waitOver (BitVec.ofNat 32 r) (BitVec.ofNat 32 σ) = true := by
  rw [waitOver_iff_mod, BitVec.toNat_ofNat, BitVec.toNat_ofNat]
  omega

/-- Settles O25: a difference below 1000 of true times does not wrap, and neither does one below `2^32`. -/
theorem waitNeverEndsEarly : Obligations.WaitNeverEndsEarly := fun _ _ hle =>
  ⟨add_interval_le_of_waitOver hle, fun hlt => ⟨add_interval_le_of_waitOver hle, waitOver_of_add_interval_le hlt⟩⟩

/-- The first wait of a frame, over at `r`: the start bias has passed since the frame-start clock read (R141). -/
theorem add_startBias_le_of_waitOver {c0 r : Nat} (hle : c0 ≤ r)
    (h : waitOver (BitVec.ofNat 32 r) (BitVec.ofNat 32 c0 + 10#32 - 1000#32) = true) : c0 + 10 ≤ r := by
  rw [waitOver_iff] at h
  simp only [BitVec.toNat_sub, BitVec.toNat_add, BitVec.toNat_ofNat] at h
  omega

/-! ### The record of the frame accepted last, and the running frame -/

/-- What the timing invariant says of a frame's record, finished or not (R116, R141, R223). -/
structure RecordTimed (r : FrameRecord) : Prop where
  writes_spaced : spaced r.times
  stamps_spaced : spaced r.stamps
  first_write : ∀ c0, r.start = some c0 → ∀ t ∈ r.times, c0 + 10 ≤ t
  done_time : ∀ c0 d, r.start = some c0 → r.doneAt = some d → c0 + 1000 * (r.writes.length - 1) + 10 ≤ d

/-- What the timing invariant says of the running frame, accepted at `c0`. -/
structure FrameTimed (s : State) (c0 : Nat) : Prop where
  start : (frameRecord s.trace).start = some c0
  start_le : c0 ≤ s.time
  not_done : (frameRecord s.trace).doneAt = none
  writes_length : (frameRecord s.trace).writes.length = writesMade s
  stamps_length : (frameRecord s.trace).stamps.length = stampsMade s
  afterWrite_iff : (frameRecord s.trace).afterWrite = true ↔ (s.ph = .stampA ∨ s.ph = .stampB)
  phase : phaseTiming s (frameRecord s.trace) c0

/-- The timing invariant is its part about the record and its part about the running frame. -/
theorem timingInv_iff (s : State) :
    TimingInv s ↔ RecordTimed (frameRecord s.trace) ∧ (s.mode = .busy → ∃ c0, FrameTimed s c0) := by
  constructor
  · intro h
    refine ⟨⟨h.writes_spaced, h.stamps_spaced, h.first_write, h.done_time⟩, fun hm => ?_⟩
    obtain ⟨c0, h1, h2, h3, h4, h5, h6, h7⟩ := h.running hm
    exact ⟨c0, h1, h2, h3, h4, h5, h6, h7⟩
  · rintro ⟨hrec, hrun⟩
    refine ⟨hrec.writes_spaced, hrec.stamps_spaced, hrec.first_write, hrec.done_time, fun hm => ?_⟩
    obtain ⟨c0, h⟩ := hrun hm
    exact ⟨c0, h.start, h.start_le, h.not_done, h.writes_length, h.stamps_length, h.afterWrite_iff, h.phase⟩

/-- While IDLE the invariant is about the record alone. -/
theorem timingInv_of_idle {s : State} (h : RecordTimed (frameRecord s.trace)) (hm : s.mode = .idle) : TimingInv s :=
  (timingInv_iff s).mpr ⟨h, by simp [hm]⟩

theorem spaced_concat {l : List Nat} {now : Nat} (h : spaced l) (hnow : ∀ t ∈ l, t + 1000 ≤ now) :
    spaced (l ++ [now]) :=
  List.pairwise_append.mpr ⟨h, List.pairwise_singleton .., fun t ht _ hu => List.mem_singleton.mp hu ▸ hnow t ht⟩

@[simp] theorem times_add_pinWrite (r : FrameRecord) (now : Nat) (p : PinId) (lv : Level) :
    (r.add (now, .pinWrite p lv)).times = r.times ++ [now] := by
  simp [FrameRecord.times]

/-- A new record holds no write and no stamp. -/
theorem recordTimed_opened (c0 : Nat) :
    RecordTimed { start := some c0, writes := [], stamps := [], afterWrite := false, doneAt := none } :=
  ⟨List.Pairwise.nil, List.Pairwise.nil, fun _ _ => nofun, fun _ _ _ => nofun⟩

/-- A pin write of an unfinished frame, at a time the rules allow. -/
theorem recordTimed_pinWrite {r : FrameRecord} {now c0 : Nat} (h : RecordTimed r) (hstart : r.start = some c0)
    (hnotDone : r.doneAt = none) (hbias : c0 + 10 ≤ now) (hwrites : ∀ t ∈ r.times, t + 1000 ≤ now) (p : PinId)
    (lv : Level) : RecordTimed (r.add (now, .pinWrite p lv)) where
  writes_spaced := by rw [times_add_pinWrite]; exact spaced_concat h.writes_spaced hwrites
  stamps_spaced := h.stamps_spaced
  first_write c hc t ht := by
    obtain rfl : c0 = c := Option.some.inj (hstart.symm.trans hc)
    rw [times_add_pinWrite, List.mem_append, List.mem_singleton] at ht
    obtain ht | rfl := ht
    · exact h.first_write _ hstart t ht
    · exact hbias
  done_time c d _ hd := by simp [hnotDone] at hd

/-- A stamp, a whole interval after every earlier one. -/
theorem recordTimed_stamp {r : FrameRecord} {now : Nat} (h : RecordTimed r) (hstamps : ∀ u ∈ r.stamps, u + 1000 ≤ now) :
    RecordTimed { r with stamps := r.stamps ++ [now], afterWrite := false } :=
  ⟨h.writes_spaced, spaced_concat h.stamps_spaced hstamps, h.first_write, h.done_time⟩

/-- `Done`, not before the nominal end. -/
theorem recordTimed_done {r : FrameRecord} {now c0 : Nat} (h : RecordTimed r) (hstart : r.start = some c0)
    (hend : c0 + 1000 * (r.writes.length - 1) + 10 ≤ now) : RecordTimed (r.add (now, .done)) where
  writes_spaced := h.writes_spaced
  stamps_spaced := h.stamps_spaced
  first_write := h.first_write
  done_time c d hc hd := by
    obtain rfl : c0 = c := Option.some.inj (hstart.symm.trans hc)
    obtain rfl : now = d := Option.some.inj hd
    exact hend

/-! ### What the next micro-step may rely on, phase by phase -/

/-- In a wait after a stamp: `LTT` is the last stamp, and no write or stamp is later. -/
def waitTiming (s : State) (r : FrameRecord) (c0 : Nat) : Prop :=
  ∃ σ, r.stamps.getLast? = some σ ∧ s.ltt = BitVec.ofNat 32 σ ∧ σ ≤ s.time ∧ (∀ t ∈ r.times, t ≤ σ)
    ∧ (∀ u ∈ r.stamps, u ≤ σ) ∧ c0 + 1000 * (writesMade s - 1) + 10 ≤ σ

/-- Before a write: a whole interval has passed since every write and stamp. -/
def writeTiming (s : State) (r : FrameRecord) (c0 : Nat) : Prop :=
  c0 + 1000 * writesMade s + 10 ≤ s.time ∧ (∀ t ∈ r.times, t + 1000 ≤ s.time) ∧ (∀ u ∈ r.stamps, u + 1000 ≤ s.time)

/-- Before a stamp: a whole interval has passed since every stamp. -/
def stampTiming (s : State) (r : FrameRecord) (c0 : Nat) : Prop :=
  c0 + 1000 * (writesMade s - 1) + 10 ≤ s.time ∧ (∀ t ∈ r.times, t ≤ s.time) ∧ (∀ u ∈ r.stamps, u + 1000 ≤ s.time)

section
variable {s : State} (r : FrameRecord) (c0 : Nat)

theorem phaseTiming_of_start (hph : s.ph = .waitA) (hk : s.k = 0) :
    phaseTiming s r c0 ↔ s.ltt = BitVec.ofNat 32 c0 + 10#32 - 1000#32 := by
  simp [phaseTiming, hph, hk]

theorem phaseTiming_of_wait (h : (s.ph = .waitA ∧ s.k ≠ 0) ∨ s.ph = .waitB) :
    phaseTiming s r c0 ↔ waitTiming s r c0 := by
  obtain ⟨hph, hk⟩ | hph := h
  · simp [phaseTiming, waitTiming, hph, hk]
  · simp [phaseTiming, waitTiming, hph]

theorem phaseTiming_of_write (h : s.ph = .writeA ∨ s.ph = .writeB) : phaseTiming s r c0 ↔ writeTiming s r c0 := by
  obtain hph | hph := h <;> simp [phaseTiming, writeTiming, hph]

theorem phaseTiming_of_stamp (h : s.ph = .stampA ∨ s.ph = .stampB) : phaseTiming s r c0 ↔ stampTiming s r c0 := by
  obtain hph | hph := h <;> simp [phaseTiming, stampTiming, hph]

end

/-- The four kinds of position a micro-step can start from. -/
theorem phase_cases (s : State) :
    (s.ph = .waitA ∧ s.k = 0) ∨ ((s.ph = .waitA ∧ s.k ≠ 0) ∨ s.ph = .waitB) ∨ (s.ph = .writeA ∨ s.ph = .writeB) ∨
      (s.ph = .stampA ∨ s.ph = .stampB) := by
  cases s.ph <;> simp [em]

/-- Letting time pass, at the same position, keeps what the next micro-step relies on: every bound is from below. -/
theorem phaseTiming_later {s t : State} {r : FrameRecord} {c0 : Nat} (h : phaseTiming s r c0) (hltt : t.ltt = s.ltt)
    (hk : t.k = s.k) (hph : t.ph = s.ph) (htime : s.time ≤ t.time) : phaseTiming t r c0 := by
  have hmade : writesMade t = writesMade s := by rw [writesMade, writesMade, hk, hph]
  obtain ⟨hs, hs0⟩ | hs | hs | hs := phase_cases s
  · rw [phaseTiming_of_start r c0 hs hs0] at h
    rwa [phaseTiming_of_start r c0 (hph.trans hs) (hk.trans hs0), hltt]
  · rw [phaseTiming_of_wait r c0 hs] at h
    obtain ⟨σ, hlast, hσ, hle, hwrites, hstamps, hbound⟩ := h
    rw [phaseTiming_of_wait r c0 (by rwa [hph, hk])]
    exact ⟨σ, hlast, hltt.trans hσ, hle.trans htime, hwrites, hstamps, by rwa [hmade]⟩
  · rw [phaseTiming_of_write r c0 hs] at h
    obtain ⟨hbound, hwrites, hstamps⟩ := h
    rw [phaseTiming_of_write r c0 (by rwa [hph])]
    exact ⟨by rw [hmade]; exact hbound.trans htime, fun t ht => (hwrites t ht).trans htime,
      fun u hu => (hstamps u hu).trans htime⟩
  · rw [phaseTiming_of_stamp r c0 hs] at h
    obtain ⟨hbound, hwrites, hstamps⟩ := h
    rw [phaseTiming_of_stamp r c0 (by rwa [hph])]
    exact ⟨by rw [hmade]; exact hbound.trans htime, fun t ht => (hwrites t ht).trans htime,
      fun u hu => (hstamps u hu).trans htime⟩

/-- Letting time pass, with the same record at the same position, keeps what is said of the running frame. -/
theorem frameTimed_later {s t : State} {c0 : Nat} (h : FrameTimed s c0)
    (hrec : frameRecord t.trace = frameRecord s.trace) (hltt : t.ltt = s.ltt) (hk : t.k = s.k) (hph : t.ph = s.ph)
    (htime : s.time ≤ t.time) : FrameTimed t c0 where
  start := by rw [hrec, h.start]
  start_le := h.start_le.trans htime
  not_done := by rw [hrec, h.not_done]
  writes_length := by rw [hrec, h.writes_length, writesMade, writesMade, hk, hph]
  stamps_length := by rw [hrec, h.stamps_length, stampsMade, stampsMade, hk, hph]
  afterWrite_iff := by rw [hrec, h.afterWrite_iff, hph]
  phase := by rw [hrec]; exact phaseTiming_later h.phase hltt hk hph htime

theorem timingInv_elapse {s : State} (h : TimingInv s) (d : Nat) : TimingInv (s.elapse d) := by
  obtain ⟨hrec, hrun⟩ := (timingInv_iff s).mp h
  refine (timingInv_iff _).mpr ⟨hrec, fun hm => ?_⟩
  obtain ⟨c0, hframe⟩ := hrun hm
  exact ⟨c0, frameTimed_later hframe rfl rfl rfl rfl (Nat.le_add_right ..)⟩

theorem frameTimed_afterInput {s : State} {c0 : Nat} (h : FrameTimed s c0) : FrameTimed s.afterInput c0 :=
  frameTimed_later h (by simp) (by simp) (by simp) (by simp) (by simp)

/-! ### Each micro-step keeps the timing (R114) -/

/-- A poll is no stamp: it leaves the record as it is. -/
theorem frameRecord_poll {s : State} (next : Phase) (h : (frameRecord s.trace).afterWrite = false) :
    frameRecord (s.poll next).trace = frameRecord s.trace := by
  have hrec : (frameRecord s.trace).add (s.time, .clockRead s.now) = frameRecord s.trace := by
    rw [add_clockRead, h]
    exact congrArg (FrameRecord.mk _ _ _ · _) h.symm
  simpa using hrec

/-- When a wait is over, the write after it may be made. -/
theorem writeTiming_of_waitOver {s : State} {c0 : Nat} (h : FrameTimed s c0) (hph : s.ph = .waitA ∨ s.ph = .waitB)
    (hover : waitOver s.now s.ltt = true) : writeTiming s (frameRecord s.trace) c0 := by
  by_cases hstart : s.ph = .waitA ∧ s.k = 0
  · obtain ⟨hA, hk⟩ := hstart
    have hltt := (phaseTiming_of_start _ _ hA hk).mp h.phase
    have hmade : writesMade s = 0 := by simp [writesMade, writesIn, hA, hk]
    have hwrites : (frameRecord s.trace).times = [] := by
      simpa [FrameRecord.times, hmade] using h.writes_length
    have hstamps : (frameRecord s.trace).stamps = [] := by
      simpa [stampsMade, stampsIn, hA, hk] using h.stamps_length
    have hbias := add_startBias_le_of_waitOver h.start_le (hltt ▸ hover)
    exact ⟨by omega, by simp [hwrites], by simp [hstamps]⟩
  · have hwait : (s.ph = .waitA ∧ s.k ≠ 0) ∨ s.ph = .waitB := by tauto
    have hpos : 1 ≤ writesMade s := by
      obtain ⟨hA, hk⟩ | hB := hwait
      · rw [writesMade]; omega
      · simp [writesMade, writesIn, hB]
    obtain ⟨σ, -, hltt, hle, hwrites, hstamps, hbound⟩ := (phaseTiming_of_wait _ _ hwait).mp h.phase
    have hinterval := add_interval_le_of_waitOver hle (hltt ▸ hover)
    exact ⟨by omega, fun t ht => by have := hwrites t ht; omega, fun u hu => by have := hstamps u hu; omega⟩

/-- A poll keeps what is said of the running frame: it stays in the wait, or goes on to the write the wait allows. -/
theorem frameTimed_poll {s : State} {c0 : Nat} {write : Phase} (h : FrameTimed s c0)
    (hph : (s.ph = .waitA ∧ write = .writeA) ∨ (s.ph = .waitB ∧ write = .writeB)) :
    frameRecord (s.poll write).trace = frameRecord s.trace ∧ FrameTimed (s.poll write) c0 := by
  have hrec := frameRecord_poll write (s := s) <| by
    rw [Bool.eq_false_iff, Ne, h.afterWrite_iff]
    obtain ⟨hA, -⟩ | ⟨hB, -⟩ := hph <;> simp [*]
  refine ⟨hrec, ?_⟩
  by_cases hover : waitOver s.now s.ltt = true
  · have htiming := writeTiming_of_waitOver h (hph.imp And.left And.left) hover
    have hwrite : (s.poll write).ph = write := by simp [hover]
    have hmade : writesMade (s.poll write) = writesMade s ∧ stampsMade (s.poll write) = stampsMade s := by
      obtain ⟨hA, rfl⟩ | ⟨hB, rfl⟩ := hph <;> simp [writesMade, stampsMade, writesIn, stampsIn, *]
    have hphase : (s.poll write).ph = .writeA ∨ (s.poll write).ph = .writeB := by
      rw [hwrite]; exact hph.imp And.right And.right
    refine ⟨hrec ▸ h.start, h.start_le, hrec ▸ h.not_done, ?_, ?_, ?_, ?_⟩
    · rw [hrec, h.writes_length, hmade.1]
    · rw [hrec, h.stamps_length, hmade.2]
    · rw [hrec, h.afterWrite_iff]
      obtain ⟨hA, rfl⟩ | ⟨hB, rfl⟩ := hph <;> simp [*]
    · rw [hrec, phaseTiming_of_write _ _ hphase, writeTiming, hmade.1]
      exact htiming
  · exact frameTimed_later h hrec rfl rfl (by simp [hover]) le_rfl


/-- The write of a symbol's half keeps what is said of the running frame. -/
theorem frameTimed_pinWrite {s : State} {c0 : Nat} {stamp : Phase} (h : FrameTimed s c0)
    (hrec : RecordTimed (frameRecord s.trace))
    (hph : (s.ph = .writeA ∧ stamp = .stampA) ∨ (s.ph = .writeB ∧ stamp = .stampB)) (lv : Level) :
    RecordTimed (frameRecord ((s.pinWrite s.pin lv).goPhase stamp).trace) ∧
      FrameTimed ((s.pinWrite s.pin lv).goPhase stamp) c0 := by
  obtain ⟨hbound, hwrites, hstamps⟩ := (phaseTiming_of_write _ _ (hph.imp And.left And.left)).mp h.phase
  have hrec' : frameRecord ((s.pinWrite s.pin lv).goPhase stamp).trace =
      (frameRecord s.trace).add (s.time, .pinWrite s.pin lv) := by simp
  have hmade : writesMade ((s.pinWrite s.pin lv).goPhase stamp) = writesMade s + 1 ∧
      stampsMade ((s.pinWrite s.pin lv).goPhase stamp) = stampsMade s := by
    obtain ⟨hA, rfl⟩ | ⟨hB, rfl⟩ := hph <;> simp [writesMade, stampsMade, writesIn, stampsIn, *]
  have hstamp : stamp = .stampA ∨ stamp = .stampB := hph.imp And.right And.right
  refine ⟨hrec' ▸ recordTimed_pinWrite hrec h.start h.not_done (by omega) hwrites _ _, ?_⟩
  refine ⟨hrec' ▸ h.start, h.start_le, hrec' ▸ h.not_done, ?_, ?_, ?_, ?_⟩
  · simp [h.writes_length, hmade.1]
  · simp [h.stamps_length, hmade.2]
  · simpa [hrec'] using hstamp
  · rw [hrec', phaseTiming_of_stamp _ _ hstamp, stampTiming, hmade.1, times_add_pinWrite]
    refine ⟨by simpa using (by omega : c0 + 1000 * writesMade s + 10 ≤ s.time), fun t ht => ?_, hstamps⟩
    obtain ht | rfl := List.mem_append.mp ht |>.imp_right List.mem_singleton.mp
    · exact (Nat.le_add_right t 1000).trans (hwrites t ht)
    · exact le_rfl

/-- The clock read after a write joins the stamps of the record. -/
theorem frameRecord_stamp {s : State} (h : (frameRecord s.trace).afterWrite = true) :
    frameRecord s.stamp.trace =
      { frameRecord s.trace with stamps := (frameRecord s.trace).stamps ++ [s.time], afterWrite := false } := by
  simp [h]

/-- A stamp that moves the position past it, to a wait after a stamp, keeps what is said of the running frame. -/
theorem frameTimed_stamp {s t : State} {c0 : Nat} (h : FrameTimed s c0) (hph : s.ph = .stampA ∨ s.ph = .stampB)
    (htrace : t.trace = s.stamp.trace) (hltt : t.ltt = s.now) (htime : t.time = s.time)
    (hwait : (t.ph = .waitA ∧ t.k ≠ 0) ∨ t.ph = .waitB) (hwrites : writesMade t = writesMade s)
    (hstamps : stampsMade t = stampsMade s + 1) : FrameTimed t c0 := by
  obtain ⟨hbound, hwritten, hstamped⟩ := (phaseTiming_of_stamp _ _ hph).mp h.phase
  have hrec' := frameRecord_stamp (h.afterWrite_iff.mpr hph)
  rw [← htrace] at hrec'
  refine ⟨hrec' ▸ h.start, htime ▸ h.start_le, hrec' ▸ h.not_done, ?_, ?_, ?_, ?_⟩
  · rw [hrec', hwrites, h.writes_length]
  · simp [hrec', hstamps, h.stamps_length]
  · obtain ⟨hA, -⟩ | hB := hwait <;> simp [*]
  · rw [hrec', phaseTiming_of_wait _ _ hwait]
    refine ⟨s.time, List.getLast?_concat .., hltt, htime.ge, hwritten, fun u hu => ?_, by rwa [hwrites]⟩
    obtain hu | rfl := List.mem_append.mp hu |>.imp_right List.mem_singleton.mp
    · exact (Nat.le_add_right u 1000).trans (hstamped u hu)
    · exact le_rfl

/-- A stamp leaves a record that meets the rules. -/
theorem recordTimed_of_stamp {s : State} {c0 : Nat} (h : FrameTimed s c0) (hrec : RecordTimed (frameRecord s.trace))
    (hph : s.ph = .stampA ∨ s.ph = .stampB) : RecordTimed (frameRecord s.stamp.trace) := by
  obtain ⟨-, -, hstamped⟩ := (phaseTiming_of_stamp _ _ hph).mp h.phase
  rw [frameRecord_stamp (h.afterWrite_iff.mpr hph)]
  exact recordTimed_stamp hrec hstamped

/-- The last stamp of a frame comes at or after its nominal end (R223). -/
theorem recordTimed_endFrame {s : State} {c0 : Nat} (h : FrameTimed s c0) (hrec : RecordTimed (frameRecord s.trace))
    (hph : s.ph = .stampB) : RecordTimed (frameRecord s.stamp.endFrame.trace) := by
  obtain ⟨hbound, -, -⟩ := (phaseTiming_of_stamp _ _ (.inr hph)).mp h.phase
  have hstamp := recordTimed_of_stamp h hrec (.inr hph)
  have hrec' := frameRecord_stamp (h.afterWrite_iff.mpr (.inr hph))
  rw [endFrame_trace, frameRecord_append]
  exact recordTimed_done hstamp (by rw [hrec', h.start]) (by rw [hrec', h.writes_length]; exact hbound)

/-- Each micro-step of a running frame keeps the timing. -/
theorem timingInv_microStep {s : State} {c0 : Nat} (h : FrameTimed s c0) (hrec : RecordTimed (frameRecord s.trace))
    (sym : Symbol) : TimingInv (s.microStep sym) := by
  cases hph : s.ph with
  | waitA =>
    obtain ⟨hsame, hframe⟩ := frameTimed_poll h (.inl ⟨hph, rfl⟩)
    rw [microStep_waitA sym hph]
    exact (timingInv_iff _).mpr ⟨hsame ▸ hrec, fun _ => ⟨c0, hframe⟩⟩
  | waitB =>
    obtain ⟨hsame, hframe⟩ := frameTimed_poll h (.inr ⟨hph, rfl⟩)
    rw [microStep_waitB sym hph]
    exact (timingInv_iff _).mpr ⟨hsame ▸ hrec, fun _ => ⟨c0, hframe⟩⟩
  | writeA =>
    obtain ⟨hrecord, hframe⟩ := frameTimed_pinWrite h hrec (.inl ⟨hph, rfl⟩) (firstLevel sym)
    rw [microStep_writeA sym hph]
    exact (timingInv_iff _).mpr ⟨hrecord, fun _ => ⟨c0, hframe⟩⟩
  | writeB =>
    obtain ⟨hrecord, hframe⟩ := frameTimed_pinWrite h hrec (.inr ⟨hph, rfl⟩) (secondLevel sym)
    rw [microStep_writeB sym hph]
    exact (timingInv_iff _).mpr ⟨hrecord, fun _ => ⟨c0, hframe⟩⟩
  | stampA =>
    have hframe : FrameTimed (s.stamp.goPhase .waitB) c0 :=
      frameTimed_stamp h (.inl hph) rfl rfl rfl (.inr rfl) (by simp [writesMade, writesIn, hph])
        (by simp [stampsMade, stampsIn, hph])
    rw [microStep_stampA sym hph]
    exact (timingInv_iff _).mpr ⟨recordTimed_of_stamp h hrec (.inl hph), fun _ => ⟨c0, hframe⟩⟩
  | stampB =>
    rw [microStep_stampB sym hph]
    obtain ⟨-, hnext⟩ | ⟨-, hnext⟩ := nextSymbol_cases s.stamp
    · rw [hnext]
      exact timingInv_of_idle (recordTimed_endFrame h hrec hph) rfl
    · have hframe : FrameTimed s.stamp.advanceSymbol c0 :=
        frameTimed_stamp h (.inr hph) rfl rfl rfl (.inl ⟨rfl, Nat.succ_ne_zero _⟩)
          (by simp [writesMade, writesIn, hph, Nat.mul_add]) (by simp [stampsMade, stampsIn, hph, Nat.mul_add])
      rw [hnext]
      exact (timingInv_iff _).mpr ⟨recordTimed_of_stamp h hrec (.inr hph), fun _ => ⟨c0, hframe⟩⟩

/-- An accepted frame: no write and no stamp yet, and `LTT` the biased frame start (R141). -/
theorem timingInv_beginFrame (s : State) (payload : List Byte) (src : PayloadSource) :
    TimingInv (s.beginFrame payload src) := by
  have hrec : frameRecord (s.beginFrame payload src).trace =
      { start := some s.time, writes := [], stamps := [], afterWrite := false, doneAt := none } := by simp
  refine (timingInv_iff _).mpr ⟨hrec ▸ recordTimed_opened s.time, fun _ => ⟨s.time, ?_⟩⟩
  exact ⟨by rw [hrec], le_rfl, by rw [hrec], by rw [hrec]; rfl, by rw [hrec]; rfl, by simp,
    (phaseTiming_of_start _ _ rfl rfl).mpr rfl⟩

/-- Settles O42: reset, rest and a configuration leave the record as it is in IDLE, an acceptance opens a new one, and
every micro-step of the running frame keeps its timing. -/
theorem timingInvKept : Obligations.TimingInvKept := fun s t hinv h => by
  obtain ⟨hrec, hrun⟩ := (timingInv_iff s).mp hinv
  obtain ⟨t, rfl, heffect⟩ := stepEffect_of_step h
  refine timingInv_elapse ?_ _
  cases heffect with
  | reset => exact timingInv_of_idle (by simpa using hrec) rfl
  | rest idle => exact timingInv_of_idle (by simpa using hrec) (by simpa using idle)
  | configure c more p idle => exact timingInv_of_idle (by simpa [State.presented] using hrec) (by simpa using idle)
  | accept c more payload src => exact timingInv_beginFrame (s.presented c) payload src
  | microStep sym busy =>
    obtain ⟨c0, hframe⟩ := hrun busy
    exact timingInv_microStep (frameTimed_afterInput hframe) (by simpa using hrec) sym

end Sys2Proof.Safety

namespace Sys2Proof.Machine

/-! ### SEND_SYMBOL, one micro-step at a time (R111, R114) -/

@[simp] theorem microStep_psrc (s : State) (sym : Symbol) : (s.microStep sym).psrc = s.psrc := by
  cases h : s.ph <;> simp [State.microStep, h]

@[simp] theorem microStep_commands (s : State) (sym : Symbol) : (s.microStep sym).commands = s.commands := by
  cases h : s.ph <;> simp [State.microStep, h]

@[simp] theorem microStep_steps (s : State) (sym : Symbol) : (s.microStep sym).steps = s.steps := by
  cases h : s.ph <;> simp [State.microStep, h]

/-- The two SEND_SYMBOL operations are those of the two symbol codes. -/
theorem sendSymbol_iff (i : Instr) :
    i = .sendSymbolZero ∨ i = .sendSymbolOne ↔ ∃ sym, i = decodeSymbol (symbolCode sym) := by
  constructor
  · rintro (rfl | rfl)
    · exact ⟨.zero, rfl⟩
    · exact ⟨.one, rfl⟩
  · rintro ⟨sym, rfl⟩
    cases sym
    · exact .inl rfl
    · exact .inr rfl

/-- In either wait a micro-step is one poll, on to the write of that half. -/
theorem microStep_poll {s : State} (sym : Symbol) {wait write : Phase}
    (h : (wait = .waitA ∧ write = .writeA) ∨ (wait = .waitB ∧ write = .writeB)) (hph : s.ph = wait) :
    s.microStep sym = s.poll write := by
  obtain ⟨rfl, rfl⟩ | ⟨rfl, rfl⟩ := h
  · exact microStep_waitA sym hph
  · exact microStep_waitB sym hph

/-- In either write phase a micro-step writes that half's level on `PIN`, and goes on to its stamp. -/
theorem microStep_write {s : State} {sym : Symbol} {lv : Level} {write stamp : Phase}
    (h : (write = .writeA ∧ stamp = .stampA ∧ lv = firstLevel sym) ∨
      (write = .writeB ∧ stamp = .stampB ∧ lv = secondLevel sym)) (hph : s.ph = write) :
    s.microStep sym = (s.pinWrite s.pin lv).goPhase stamp := by
  obtain ⟨rfl, rfl, rfl⟩ | ⟨rfl, rfl, rfl⟩ := h
  · exact microStep_writeA sym hph
  · exact microStep_writeB sym hph

theorem poll_of_waitOver {s : State} (next : Phase) (h : waitOver s.now s.ltt = true) :
    s.poll next = s.readClock.goPhase next := by
  rw [State.poll, if_pos h]

theorem poll_of_not_waitOver {s : State} (next : Phase) (h : ¬ waitOver s.now s.ltt = true) :
    s.poll next = s.readClock := by
  rw [State.poll, if_neg h]
  rfl

/-- Where the clock has not wrapped since the reference, the comparator compares with the target (R111). -/
theorem waitOver_iff_of_le {now ref : Time} (h : ref.toNat ≤ now.toNat) :
    waitOver now ref = true ↔ ref.toNat + 1000 ≤ now.toNat := by
  have hnow := now.isLt
  rw [waitOver_iff_mod]
  omega

/-- Settles O21: in a wait a micro-step is one poll, which goes on exactly if the comparator says so. -/
theorem pollEndsWaitExactlyAtInterval : Obligations.PollEndsWaitExactlyAtInterval := by
  refine ⟨fun _ _ => waitOver_iff_of_le, fun s i hi hm wait write hphases hph => ?_⟩
  obtain ⟨sym, rfl⟩ := (sendSymbol_iff i).mp hi
  rw [exec_symbol sym hm, microStep_poll sym hphases hph]
  refine ⟨fun hover => ?_, fun hover => ?_⟩
  · rw [poll_of_waitOver write ((waitOver_iff ..).mpr hover)]
    rfl
  · rw [poll_of_not_waitOver write (mt (waitOver_iff ..).mp (Nat.not_le.mpr hover))]
    rfl

/-- Settles O24, field by field: `LTT`, the levels and the position by what a micro-step writes. -/
theorem sendSymbolLeavesTheRest : Obligations.SendSymbolLeavesTheRest := fun s t i hi h => by
  obtain ⟨sym, rfl⟩ := (sendSymbol_iff i).mp hi
  obtain ⟨hm, rfl⟩ : s.mode = .busy ∧ t = s.microStep sym := by
    cases sym <;> exact whenBusy_next.mp h
  refine ⟨by simp, by simp, by simp, by simp, by simp, by simp, by simp, by simp, by simp, fun q hq => ?_,
    fun hA hB => by simp [microStep_ltt, hA, hB], fun hB => ?_⟩
  · obtain hlevel | ⟨hph, lv, hlevel⟩ := microStep_level_cases s sym
    · exact levelOf_congr hlevel q
    · have hne : q ≠ s.pin := hq.resolve_right fun hph' => hph.elim hph'.1 hph'.2
      rw [levelOf_congr hlevel, levelOf_pinWrite, if_neg hne]
  · obtain ⟨hmode, hk⟩ | ⟨hB', -⟩ | ⟨hB', -⟩ := microStep_position s sym
    · exact ⟨hk, hmode, by rw [State.busyFlag, State.busyFlag, hmode]⟩
    · exact absurd hB' hB
    · exact absurd hB' hB

end Sys2Proof.Machine

namespace Sys2Proof.Safety

open Sys2Proof.Machine

/-! ### The micro-step table (R114) -/

/-- A poll as a row of the table. -/
theorem poll_eq_row (s : State) (write : Phase) : s.poll write =
    { s with
      trace := s.trace ++ [(s.time, .clockRead (BitVec.ofNat 32 s.time))]
      ph := if 1000 ≤ (BitVec.ofNat 32 s.time - s.ltt).toNat then write else s.ph } := by
  by_cases h : 1000 ≤ (BitVec.ofNat 32 s.time - s.ltt).toNat
  · rw [poll_of_waitOver write ((waitOver_iff ..).mpr h), if_pos h]
    rfl
  · rw [poll_of_not_waitOver write (mt (waitOver_iff ..).mp h), if_neg h]
    rfl

/-- A micro-step is the row of the table its phase names. -/
theorem microStep_eq_table (s : State) (sym : Symbol) :
    s.microStep sym = microStepTable s (firstLevel sym) (secondLevel sym) := by
  cases h : s.ph with
  | waitA => rw [microStep_waitA sym h, poll_eq_row]; simp only [microStepTable, h]
  | writeA => rw [microStep_writeA sym h]; simp only [microStepTable, h]; rfl
  | stampA => rw [microStep_stampA sym h]; simp only [microStepTable, h]; rfl
  | waitB => rw [microStep_waitB sym h, poll_eq_row]; simp only [microStepTable, h]
  | writeB => rw [microStep_writeB sym h]; simp only [microStepTable, h]; rfl
  | stampB =>
    rw [microStep_stampB sym h]
    simp only [microStepTable, h]
    obtain ⟨hlast, hnext⟩ | ⟨hlast, hnext⟩ := nextSymbol_cases s.stamp
    · rw [hnext, if_pos (by simpa [symbolCount_eq] using hlast), ← h]; rfl
    · rw [hnext, if_neg (by simpa [symbolCount_eq] using hlast)]; rfl

/-- A micro-step does not read the inputs. -/
theorem microStep_withInputs (s : State) (sym : Symbol) (more : List Input) :
    State.microStep { s with inputs := more } sym = { s.microStep sym with inputs := more } := by
  rw [microStep_eq_table, microStep_eq_table]
  cases h : s.ph with
  | stampB => simp only [microStepTable, h]; split <;> rfl
  | waitA | writeA | stampA | waitB | writeB => simp only [microStepTable, h]

/-- At a calm input a busy block makes one micro-step, and the input's time passes. -/
theorem step_calm {s : State} {sym : Symbol} {d : Nat} {more : List Input} (hm : s.mode = .busy)
    (hsym : frameSymbol s.pbuf s.k = some sym) (hin : s.inputs = calm d :: more) :
    step s = .next (State.elapse { s.microStep sym with inputs := more } d) := by
  have hnext : s.nextInput = calm d := by simp [State.nextInput, hin]
  have hafter : s.afterInput = { s with inputs := more } := by
    rw [State.afterInput, hnext, State.takeInput, hin]
    rfl
  rw [step_busy (by rw [hnext]; rfl) hm (by rw [hafter]; exact hsym), hafter, hnext, microStep_withInputs]
  rfl

/-- Settles O22: exec of a symbol operation is a micro-step, a step of the machine is that micro-step, and a micro-step
is a row of the table. -/
theorem sendSymbolRunsTheMicroStepTable : Obligations.SendSymbolRunsTheMicroStepTable := by
  refine ⟨fun s hm => ⟨?_, ?_⟩, fun s sym d more hm hsym hin => ?_⟩
  · exact (exec_symbol .zero hm).trans (congrArg _ (microStep_eq_table s .zero))
  · exact (exec_symbol .one hm).trans (congrArg _ (microStep_eq_table s .one))
  · rw [step_calm hm hsym hin, ← microStep_eq_table]
    simp only [State.elapse, microStep_time, microStep_steps]

end Sys2Proof.Safety

namespace Sys2Proof.Safety

open Sys2Proof.Machine

/-! ### A symbol without delay (R112, R113, R117) -/

/-- The state `s` after one half of a symbol up to its stamp, all at the current time: one poll, then the level written on
`PIN`; two steps, after which the inputs are `rest`. -/
def halfWritten (s : State) (lv : Level) (stamp : Phase) (rest : List Input) : State :=
  { (s.readClock.pinWrite s.pin lv).goPhase stamp with inputs := rest, steps := s.steps + 2 }

/-- A run of a busy block goes on, at a calm input, from the state after one micro-step. -/
theorem runSteps_calm {n : Nat} {s : State} {sym : Symbol} {d : Nat} {more : List Input} (hm : s.mode = .busy)
    (hsym : frameSymbol s.pbuf s.k = some sym) (hin : s.inputs = calm d :: more) :
    runSteps (n + 1) s = runSteps n (State.elapse { s.microStep sym with inputs := more } d) :=
  runSteps_succ (step_calm hm hsym hin)

/-- Two steps without delay from a wait that is over: the poll and the write of that half. -/
theorem runSteps_halfWritten {n : Nat} {s : State} {sym : Symbol} {lv : Level} {wait write stamp : Phase}
    {rest : List Input} (hm : s.mode = .busy) (hsym : frameSymbol s.pbuf s.k = some sym)
    (hover : waitOver s.now s.ltt = true) (hin : s.inputs = calm 0 :: calm 0 :: rest) (hph : s.ph = wait)
    (hpoll : (wait = .waitA ∧ write = .writeA) ∨ (wait = .waitB ∧ write = .writeB))
    (hwrite : (write = .writeA ∧ stamp = .stampA ∧ lv = firstLevel sym) ∨
      (write = .writeB ∧ stamp = .stampB ∧ lv = secondLevel sym)) :
    runSteps (n + 2) s = runSteps n (halfWritten s lv stamp rest) := by
  rw [runSteps_calm hm hsym hin, microStep_poll sym hpoll hph, poll_of_waitOver write hover,
    runSteps_calm (sym := sym) (d := 0) (more := rest), microStep_write hwrite]
  · rfl
  · rfl
  · exact hm
  · exact hsym
  · rfl

/-- The first half of a symbol without delay, half a bit before the next look at the clock. -/
theorem runSteps_firstHalf {n : Nat} {s : State} {sym : Symbol} {more : List Input} (hm : s.mode = .busy)
    (hsym : frameSymbol s.pbuf s.k = some sym) (hover : waitOver s.now s.ltt = true)
    (hin : s.inputs = promptHalves 1 ++ more) (hph : s.ph = .waitA) :
    runSteps (n + 3) s =
      runSteps n (((halfWritten s (firstLevel sym) .stampA more).stamp.goPhase .waitB).elapse 1000) := by
  rw [runSteps_halfWritten (n := n + 1) hm hsym hover hin hph (.inl ⟨rfl, rfl⟩) (.inl ⟨rfl, rfl, rfl⟩),
    runSteps_calm (sym := sym) (d := 1000) (more := more), microStep_stampA]
  · rfl
  · rfl
  · exact hm
  · exact hsym
  · rfl

/-- The end of a symbol does not read the inputs. -/
theorem nextSymbol_withInputs (s : State) (more : List Input) :
    State.nextSymbol { s with inputs := more } = { s.nextSymbol with inputs := more } := by
  unfold State.nextSymbol
  split <;> rfl

/-- The second half of a symbol without delay. -/
theorem runSteps_secondHalf {n : Nat} {s : State} {sym : Symbol} {more : List Input} (hm : s.mode = .busy)
    (hsym : frameSymbol s.pbuf s.k = some sym) (hover : waitOver s.now s.ltt = true)
    (hin : s.inputs = promptHalves 1 ++ more) (hph : s.ph = .waitB) :
    runSteps (n + 3) s =
      runSteps n ((halfWritten s (secondLevel sym) .stampB more).stamp.nextSymbol.elapse 1000) := by
  rw [runSteps_halfWritten (n := n + 1) hm hsym hover hin hph (.inr ⟨rfl, rfl⟩) (.inr ⟨rfl, rfl, rfl⟩),
    runSteps_calm (sym := sym) (d := 1000) (more := more), microStep_stampB]
  · exact congrArg (fun u => runSteps n (State.elapse u 1000)) (nextSymbol_withInputs _ more).symm
  · rfl
  · exact hm
  · exact hsym
  · rfl

/-- The state after a whole symbol without delay, begun in `s`. -/
def symbolSent (s : State) (sym : Symbol) (more : List Input) : State :=
  (halfWritten (((halfWritten s (firstLevel sym) .stampA (promptHalves 1 ++ more)).stamp.goPhase .waitB).elapse 1000)
    (secondLevel sym) .stampB more).stamp.nextSymbol.elapse 1000

/-- Six steps without delay send a symbol: the second wait is over when first polled, 1000 after the first stamp. -/
theorem runSteps_symbolSent {n : Nat} {s : State} {sym : Symbol} {more : List Input} (hm : s.mode = .busy)
    (hsym : frameSymbol s.pbuf s.k = some sym) (hover : waitOver s.now s.ltt = true)
    (hin : s.inputs = promptHalves 2 ++ more) (hph : s.ph = .waitA) :
    runSteps (n + 6) s = runSteps n (symbolSent s sym more) := by
  have hover' : waitOver (BitVec.ofNat 32 (s.time + 1000)) (BitVec.ofNat 32 s.time) = true :=
    waitOver_of_add_interval_le (by omega) le_rfl
  rw [runSteps_firstHalf (n := n + 3) hm hsym hover (more := promptHalves 1 ++ more) hin hph,
    runSteps_secondHalf (sym := sym) (more := more)]
  · rfl
  · exact hm
  · exact hsym
  · exact hover'
  · rfl
  · rfl

theorem nextSymbol_writes (s : State) :
    (frameRecord s.nextSymbol.trace).writes = (frameRecord s.trace).writes := by
  obtain ⟨-, hnext⟩ | ⟨-, hnext⟩ := nextSymbol_cases s <;> simp [hnext]

/-- The two pin writes of a symbol without delay, half a bit apart. -/
theorem symbolSent_writes (s : State) (sym : Symbol) (more : List Input) :
    (frameRecord (symbolSent s sym more).trace).writes =
      (frameRecord s.trace).writes ++ [(s.time, s.pin, firstLevel sym), (s.time + 1000, s.pin, secondLevel sym)] := by
  simp [symbolSent, nextSymbol_writes, halfWritten]

theorem symbolSent_ltt (s : State) (sym : Symbol) (more : List Input) :
    (symbolSent s sym more).ltt = BitVec.ofNat 32 (s.time + 1000) := by
  simp [symbolSent, halfWritten, State.now]

theorem symbolSent_inputs (s : State) (sym : Symbol) (more : List Input) : (symbolSent s sym more).inputs = more := by
  simp [symbolSent, halfWritten]

theorem symbolSent_pbuf (s : State) (sym : Symbol) (more : List Input) : (symbolSent s sym more).pbuf = s.pbuf := by
  simp [symbolSent, halfWritten]

/-- Settles O26: six steps without delay send the symbol, `firstLevel` and `secondLevel` being its line code (R84). -/
theorem wholeSymbolWritesTwoLevels : Obligations.WholeSymbolWritesTwoLevels :=
  fun s sym more hm hph hsym hover hin => by
    have hwrites := symbolSent_writes s sym more
    refine ⟨symbolSent s sym more, runSteps_symbolSent (n := 0) hm hsym ((waitOver_iff ..).mpr hover) hin hph, ?_, ?_,
      symbolSent_ltt s sym more, symbolSent_inputs s sym more, symbolSent_pbuf s sym more⟩
    · rintro rfl
      exact hwrites
    · rintro rfl
      exact hwrites

end Sys2Proof.Safety

namespace Sys2Proof.Machine

/-! ### Acceptance of a frame (R140, R141, R149) -/

/-- Acceptance as one update of the state, field by field (R141). -/
theorem beginFrame_eq (s : State) (payload : List Byte) (src : PayloadSource) : s.beginFrame payload src =
    { s with
      mode := .busy, pbuf := payload, nlen := payload.length, psrc := src
      ltt := BitVec.ofNat 32 s.time + 10#32 - 1000#32, k := 0, ph := .waitA
      trace := s.trace ++ [(s.time, .accept payload), (s.time, .clockRead (BitVec.ofNat 32 s.time))] } := by
  have htrace : (s.beginFrame payload src).trace =
      s.trace ++ [(s.time, .accept payload), (s.time, .clockRead (BitVec.ofNat 32 s.time))] :=
    List.append_assoc ..
  rw [← htrace]
  rfl

/-- A command that starts a frame and has a next state leaves what acceptance leaves. -/
theorem exec_startsFrame {i : Instr} {s t : State} (hi : startsFrame i) (h : exec i s = .next t) :
    ∃ payload src, t = s.beginFrame payload src := by
  obtain ⟨n, rfl⟩ | ⟨v, rfl⟩ := hi
  · exact ⟨_, _, (whenIdle_next.mp h).2⟩
  · exact ⟨_, _, (whenIdle_next.mp h).2⟩

/-- Settles O11: the empty frame by its segments; with length 0 no byte of the payload space is captured. -/
theorem zeroLengthFrameAccepted : Obligations.ZeroLengthFrameAccepted :=
  ⟨(frameIsPreambleStartPayloadTerminator []).1, frameSymbols_length [], frameLevels_length [], fun s m hm =>
    ⟨_, exec_transmitFrame hm 0, rfl, rfl, rfl, exec_transmitFrame (s := { s with payload := m }) hm 0⟩⟩

/-- Settles O12: both commands leave what acceptance leaves, which writes none of these. -/
theorem transmitAcceptanceLeavesTheRest : Obligations.TransmitAcceptanceLeavesTheRest := fun s t i hi h => by
  obtain ⟨payload, src, rfl⟩ := exec_startsFrame hi h
  exact ⟨rfl, fun _ => rfl, fun _ => rfl, rfl, rfl, rfl, rfl⟩

/-! ### The block's steps without a command (R147, R174) -/

theorem whenBusy_of_idle {s : State} (t : State) (h : s.mode = .idle) : s.whenBusy t = .refused .symbolWhileIdle := by
  rw [State.whenBusy, h]

/-- Settles O23: both SEND_SYMBOL operations run only in BUSY. -/
theorem noSymbolWhileIdle : Obligations.NoSymbolWhileIdle := fun s i hi hm => by
  obtain rfl | rfl := hi
  · exact whenBusy_of_idle _ hm
  · exact whenBusy_of_idle _ hm

/-- Settles O28: without reset a step is the block's own step after the input, and that runs the symbol at `K`. -/
theorem stepRunsTheSelectedSymbol : Obligations.StepRunsTheSelectedSymbol := by
  rintro s _ sym rfl hm hr hsym
  have hblock : s.afterInput.blockStep = exec (decodeSymbol (symbolCode sym)) s.afterInput :=
    blockStep_symbol (by simpa using hm) hsym
  rw [step_noReset hr, hblock]
  rfl

/-! ### The last level of a frame (R145, R146) -/

/-- The last symbol of every frame is a ZERO. -/
theorem frameSymbol_last (p : List Byte) : frameSymbol p (16 + 8 * p.length) = some .zero :=
  frameSymbol_terminator p (by omega) (by omega)

/-- Every frame leaves its pin LOW. -/
theorem frameLevels_getLast? (p : List Byte) : (frameLevels p).getLast? = some .low := by
  have hindex : (frameLevels p).length - 1 = 2 * (16 + 8 * p.length) + 1 := by
    rw [frameLevels_length, symbolCount_eq]
    omega
  rw [List.getLast?_eq_getElem?, hindex, frameLevels_second, frameSymbol_last]
  rfl

end Sys2Proof.Machine

namespace Sys2Proof.Safety

open Sys2Proof.Machine

/-! ### The last stamp (R146) -/

/-- The step at the second stamp of the last symbol: a stamp, then the end of the frame. -/
theorem step_lastStamp {s : State} (hseq : SequencerInv s) (hm : s.mode = .busy) (hph : s.ph = .stampB)
    (hlast : s.k + 1 = 17 + 8 * s.nlen) (hr : noReset s) :
    step s = .next (s.afterInput.stamp.endFrame.elapse s.nextInput.advance) := by
  have hsym : frameSymbol s.afterInput.pbuf s.k = some .zero := by
    have hk : s.k = 16 + 8 * s.afterInput.pbuf.length := by
      rw [afterInput_pbuf_length, ← hseq.nlen_eq hm]
      omega
    rw [hk, frameSymbol_last]
  have hend : s.afterInput.stamp.nextSymbol = s.afterInput.stamp.endFrame :=
    if_pos (by simpa [symbolCount_eq] using hlast)
  rw [step_busy hr hm hsym, microStep_stampB .zero (by simpa using hph), hend]

/-- Before the last stamp every level of the frame is written. -/
theorem levels_of_lastStamp {s : State} (h : WaveformInv s) (hm : s.mode = .busy) (hph : s.ph = .stampB)
    (hlast : s.k + 1 = 17 + 8 * s.nlen) :
    (frameRecord s.trace).levels = (frameLevels s.pbuf).map fun lv => (s.pin, lv) := by
  have hall : (frameLevels s.pbuf).length ≤ writesMade s := by
    rw [frameLevels_length, symbolCount_eq, ← h.sequencer.nlen_eq hm, writesMade, hph, writesIn]
    omega
  rw [h.writes hm, List.take_of_length_le hall]

/-- A stamp and the end of a frame write no level. -/
theorem levels_endFrame_stamp (s : State) :
    (frameRecord s.stamp.endFrame.trace).levels = (frameRecord s.trace).levels := by
  simp [FrameRecord.levels]

/-- Settles O45: every level is written before the last stamp, the last one LOW, and the stamp ends the frame. -/
theorem lastStampEndsTheWholeFrame : Obligations.LastStampEndsTheWholeFrame := fun s h hm hph hlast hr => by
  have hlevels := levels_of_lastStamp h hm hph hlast
  have hlow : s.levelOf s.pin = some .low :=
    h.last_level hm (s.pin, .low) (by rw [hlevels, List.getLast?_map, frameLevels_getLast?]; rfl)
  refine ⟨_, step_lastStamp h.sequencer hm hph hlast hr, rfl, rfl, by simp, ?_, ?_, by simp [State.now], by simp⟩
  · rw [elapse_trace, levels_endFrame_stamp, afterInput_trace, hlevels]
  · rw [← hlow]
    exact levelOf_congr (by simp) s.pin

/-! ### The start of a frame without delay (R141, R151, R218) -/

/-- Before the difference aliases, the first wait of a frame is over once the start bias has passed (R141). -/
theorem waitOver_of_add_startBias_le {c0 r : Nat} (hlt : r + 990 < c0 + 2 ^ 32) (h : c0 + 10 ≤ r) :
    waitOver (BitVec.ofNat 32 r) (BitVec.ofNat 32 c0 + 10#32 - 1000#32) = true := by
  rw [waitOver_iff]
  simp only [BitVec.toNat_sub, BitVec.toNat_add, BitVec.toNat_ofNat]
  omega

/-- Settles O8: `beginFrame` written out, and the first wait on true times. -/
theorem transmitFrameAccepted : Obligations.TransmitFrameAccepted := fun s n => by
  refine ⟨fun hm => ?_, fun hm => whenIdle_of_busy _ hm, fun r hle => ?_⟩
  · rw [exec_transmitFrame hm, beginFrame_eq, capturePayload_length]
    rfl
  · have hearly := add_startBias_le_of_waitOver (r := r) hle
    exact ⟨hearly, fun hlt => ⟨hearly, waitOver_of_add_startBias_le hlt⟩⟩

/-- A frame whose acceptance is followed by 10 microseconds and two steps without delay has made its first pin write. -/
theorem runSteps_firstWrite (s : State) (payload : List Byte) (src : PayloadSource) {rest : List Input}
    (hin : s.inputs = calm 0 :: calm 0 :: rest) :
    runSteps 2 ((s.beginFrame payload src).elapse 10) =
      some (halfWritten ((s.beginFrame payload src).elapse 10) .high .stampA rest) := by
  have hsym : frameSymbol payload 0 = some .zero := frameSymbol_preamble payload (by decide)
  have hover : waitOver (BitVec.ofNat 32 (s.time + 10)) (BitVec.ofNat 32 s.time + 10#32 - 1000#32) = true :=
    waitOver_of_add_startBias_le (by omega) le_rfl
  exact runSteps_halfWritten (n := 0) rfl hsym hover hin rfl (.inl ⟨rfl, rfl⟩) (.inl ⟨rfl, rfl, rfl⟩)

/-- Settles O13: the step of the acceptance, then the poll and the write of the first ZERO's first half. -/
theorem nextFrameStartsTenMicrosecondsLater : Obligations.NextFrameStartsTenMicrosecondsLater :=
  fun s c rest more n hm hc hd hin => by
    have hnext : s.nextInput = calm 10 := by rw [State.nextInput, hin]
    have hstep : step s =
        .next (((s.presented c).beginFrame ((s.presented c).capturePayload n) .hostBuffer).elapse 10) := by
      rw [step_command (by rw [hnext]; rfl) hm hc, hd, exec_transmitFrame (by simpa using hm), hnext]
      rfl
    refine ⟨_, (runSteps_succ hstep).trans (runSteps_firstWrite _ _ _ (rest := more) ?_), ?_⟩
    · simp [State.presented, hin]
    · simp [halfWritten, State.presented]

end Sys2Proof.Safety

namespace Sys2Proof.Machine

/-! ### The configuration command (R170, R172) -/

/-- The state SET_TRANSMIT_PIN leaves, executed in IDLE. -/
theorem exec_setTransmitPin {s : State} (h : s.mode = .idle) (p : PinId) :
    exec (.setTransmitPin p) s = .next ({ s with pin := p }.pinMode p) :=
  whenIdle_of_idle _ h

/-- SET_TRANSMIT_PIN has no other next state than that one. -/
theorem exec_setTransmitPin_next {s t : State} {p : PinId} (h : exec (.setTransmitPin p) s = .next t) :
    t = { s with pin := p }.pinMode p :=
  (whenIdle_next.mp h).2

/-- Settles O4: the decoder on the two fields, and the command's two answers. -/
theorem setTransmitPinSelectsPin : Obligations.SetTransmitPinSelectsPin := fun _ p =>
  ⟨decodeCommand_append 0b00#2 p, fun hm => exec_setTransmitPin hm p, fun hm => whenIdle_of_busy _ hm⟩

/-- Settles O6: the state the command leaves differs in `PIN` and the trace, and nothing listed reads either. -/
theorem setTransmitPinLeavesTheRest : Obligations.SetTransmitPinLeavesTheRest := fun s t p h => by
  obtain rfl := exec_setTransmitPin_next h
  exact ⟨rfl, rfl, rfl, rfl, rfl, rfl, rfl, rfl, fun _ => rfl, fun _ => rfl, rfl, rfl, rfl, rfl⟩

/-- What an acceptance appends to the trace. -/
theorem beginFrame_trace_drop (s : State) (payload : List Byte) (src : PayloadSource) :
    (s.beginFrame payload src).trace.drop s.trace.length = [(s.time, .accept payload), (s.time, .clockRead s.now)] := by
  rw [beginFrame_trace, List.append_assoc, List.drop_left]
  rfl

/-- After a configuration the events of an acceptance stand behind the `PinMode` (R172). -/
theorem beginFrame_configure_trace (s : State) (p : PinId) (payload : List Byte) (src : PayloadSource) :
    (({ s with pin := p }.pinMode p).beginFrame payload src).trace =
      s.trace ++ [(s.time, .pinMode p)] ++ (s.beginFrame payload src).trace.drop s.trace.length := by
  rw [beginFrame_trace_drop, beginFrame_trace, List.append_assoc]
  rfl

/-- Settles O5: the payload captured after a configuration is the one captured without it, and acceptance does not read
`PIN`. -/
theorem reconfigurationChangesOnlyThePin : Obligations.ReconfigurationChangesOnlyThePin := fun s p n hm =>
  ⟨_, _, _, exec_setTransmitPin hm p, rfl, exec_transmitFrame (s := { s with pin := p }.pinMode p) hm n,
    exec_transmitFrame hm n, rfl, beginFrame_configure_trace s p (s.capturePayload n) .hostBuffer⟩

/-! ### The reserved command code (R89 (a), R173) -/

/-- A word with `op = 0b11` names the reserved command. -/
theorem decodeCommand_of_reserved {cw : CmdWord} (h : opField cw = 0b11#2) :
    decodeCommand cw = .reservedCmd3 (argField cw) := by
  rw [decodeCommand, h]
  rfl

/-- The reserved command is refused in every state. -/
theorem exec_reservedCmd3 (arg : BitVec 16) (s : State) : exec (.reservedCmd3 arg) s = .refused .reservedCommand := rfl

/-- Settles O7: an idle block's step runs what its command word names, and no time passes after a refusal. -/
theorem reservedCommandRefused : Obligations.ReservedCommandRefused := by
  refine ⟨exec_reservedCmd3, fun arg => decodeCommand_append 0b11#2 arg, fun s c rest hm hr hc hop => ?_⟩
  rw [step_command hr hm hc, decodeCommand_of_reserved hop, exec_reservedCmd3]
  rfl

end Sys2Proof.Machine

namespace Sys2Proof.Safety

open Sys2Proof.Machine

/-- Settles O43: power-on selects the default pin. -/
theorem pinSelectedInvAtReset : Obligations.PinSelectedInvAtReset := .inl rfl

end Sys2Proof.Safety

namespace Sys2Proof.Machine

/-! ### An idle block and its commands (R180, R193) -/

/-- An idle block with no command takes its input: inputs, payload space and time move on, and every register is held. -/
theorem step_rest {s : State} (hm : s.mode = .idle) (hr : s.nextInput.reset = false) (hc : s.commands = []) :
    step s = .next
      ({ s with inputs := s.inputs.tail, payload := s.afterInput.payload }.elapse s.nextInput.advance) := by
  rw [step_idle hr hm hc, ← afterInput_of_idle hm]

/-- Settles O29: what an idle block's input changes is none of the registers, the levels or the trace. -/
theorem idleBlockHoldsItsState : Obligations.IdleBlockHoldsItsState := fun _ hm hr hc =>
  ⟨_, step_rest hm hr hc, rfl, rfl, rfl, hm, rfl, rfl, rfl, rfl, fun _ => rfl, rfl⟩

/-- An idle block completes each of the three defined commands. -/
theorem exec_definedCommand_of_idle {s : State} {cw : CmdWord} (hm : s.mode = .idle) (hop : opField cw ≠ 0b11#2) :
    ∃ t, exec (decodeCommand cw) s = .next t := by
  rw [decodeCommand]
  obtain h | h | h | h := operationCode_cases (opField cw)
  · rw [h]; exact ⟨_, exec_setTransmitPin hm _⟩
  · rw [h]; exact ⟨_, exec_transmitU16 hm _⟩
  · rw [h]; exact ⟨_, exec_transmitFrame hm _⟩
  · exact absurd h hop

/-- A step that presents a defined command to an idle block has a next state. -/
theorem step_definedCommand {s : State} {c : Command} {rest : List Command} (hm : s.mode = .idle)
    (hr : s.nextInput.reset = false) (hc : s.commands = c :: rest) (hop : opField c.word ≠ 0b11#2) :
    ∃ t, step s = .next t := by
  have hpresented : (s.presented c).mode = .idle := by simpa using hm
  obtain ⟨t, ht⟩ := exec_definedCommand_of_idle hpresented hop
  exact ⟨_, (step_command hr hm hc).trans (elapseAfter_next.mpr ⟨t, ht, rfl⟩)⟩

end Sys2Proof.Machine

namespace Sys2Proof.Safety

open Sys2Proof.Machine

/-! ### No step faults (R180) -/

/-- A step of a running frame has a next state: the invariant puts a symbol of the frame at the position. -/
theorem step_runningFrame {s : State} (hinv : SequencerInv s) (hm : s.mode = .busy) (hr : noReset s) :
    ∃ t, step s = .next t := by
  have hk : s.k < symbolCount s.afterInput.pbuf.length := by
    rw [afterInput_pbuf_length, ← hinv.nlen_eq hm]
    exact hinv.k_lt hm
  obtain ⟨sym, hsym⟩ := Option.isSome_iff_exists.mp ((frameSymbol_isSome s.afterInput.pbuf s.k).mpr hk)
  exact ⟨_, step_busy hr hm hsym⟩

/-- Settles O31, by what a step can be: a reset, an idle block's step without or with a command, a micro-step. -/
theorem onlyTheReservedCommandIsRefused : Obligations.OnlyTheReservedCommandIsRefused := fun s hinv => by
  cases hr : s.nextInput.reset with
  | true => exact .inl ⟨_, step_reset hr⟩
  | false =>
    cases hm : s.mode with
    | busy => exact .inl (step_runningFrame hinv hm hr)
    | idle =>
      cases hc : s.commands with
      | nil => exact .inl ⟨_, step_rest hm hr hc⟩
      | cons c rest =>
        by_cases hop : opField c.word = 0b11#2
        · obtain ⟨-, -, hrefused⟩ := reservedCommandRefused
          exact .inr ⟨hrefused s c rest hm hr hc hop, rfl, c, rest, rfl, hop⟩
        · exact .inl (step_definedCommand hm hr hc hop)

end Sys2Proof.Safety

namespace Sys2Proof.Machine

/-! ### A step at which reset is asserted (R184, R210, R211) -/

/-- Settles O2: such a step is the reset event, then time passes; a host store of the same step touches nothing listed. -/
theorem resetEndsAnythingAtOnce : Obligations.ResetEndsAnythingAtOnce := fun _ hr =>
  ⟨_, step_reset hr, rfl, rfl, rfl, by simp, levelOf_congr (by simp), by simp, by simp⟩

/-! ### The levels left of a frame (R86) -/

/-- The levels from symbol `k` on are the two of that symbol, then those from the next symbol on. -/
theorem frameLevels_drop {p : List Byte} {k : Nat} {sym : Symbol} (h : frameSymbol p k = some sym) :
    (frameLevels p).drop (2 * k) = firstLevel sym :: secondLevel sym :: (frameLevels p).drop (2 * (k + 1)) := by
  have hfirst : (frameLevels p)[2 * k]? = some (firstLevel sym) := by rw [frameLevels_first, h, Option.map_some]
  have hsecond : (frameLevels p)[2 * k + 1]? = some (secondLevel sym) := by
    rw [frameLevels_second, h, Option.map_some]
  obtain ⟨hlt, hget⟩ := List.getElem?_eq_some_iff.mp hfirst
  obtain ⟨hlt', hget'⟩ := List.getElem?_eq_some_iff.mp hsecond
  rw [List.drop_eq_getElem_cons hlt, hget, List.drop_eq_getElem_cons hlt', hget']
  rfl

/-- No level is left after the last symbol. -/
theorem frameLevels_drop_all (p : List Byte) : (frameLevels p).drop (2 * symbolCount p.length) = [] :=
  List.drop_of_length_le (frameLevels_length p).le

end Sys2Proof.Machine

namespace Sys2Proof.Safety

open Sys2Proof.Machine

/-! ### A whole frame without delay (R117, R140, R223) -/

/-- The pin writes of the levels `lvs` half a bit apart, the first at `start`. -/
def nominalWrites (start : Nat) (pin : PinId) (lvs : List Level) : List (Nat × PinId × Level) :=
  lvs.mapIdx fun j lv => (start + 1000 * j, pin, lv)

/-- A symbol's two writes come first, and the rest start a whole bit later. -/
theorem nominalWrites_symbol (start : Nat) (pin : PinId) (first second : Level) (lvs : List Level) :
    nominalWrites start pin (first :: second :: lvs) =
      [(start, pin, first), (start + 1000, pin, second)] ++ nominalWrites (start + 2000) pin lvs := by
  have htime (j : Nat) : start + 1000 * (j + 1 + 1) = start + 2000 + 1000 * j := by omega
  simp [nominalWrites, List.mapIdx_cons, htime]

theorem promptHalves_add (m n : Nat) : promptHalves (m + n) = promptHalves m ++ promptHalves n := by
  rw [promptHalves, List.replicate_add, List.flatten_append]
  rfl

theorem symbolSent_time (s : State) (sym : Symbol) (more : List Input) :
    (symbolSent s sym more).time = s.time + 2000 := by
  simp [symbolSent, halfWritten]

theorem symbolSent_pin (s : State) (sym : Symbol) (more : List Input) : (symbolSent s sym more).pin = s.pin := by
  simp [symbolSent, halfWritten]

theorem symbolSent_commands (s : State) (sym : Symbol) (more : List Input) :
    (symbolSent s sym more).commands = s.commands := by
  simp [symbolSent, halfWritten]

theorem symbolSent_nlen (s : State) (sym : Symbol) (more : List Input) : (symbolSent s sym more).nlen = s.nlen := by
  simp [symbolSent, halfWritten]

/-- After the last symbol of a frame the block is IDLE, `Done` recorded at the symbol's second stamp. -/
theorem symbolSent_last {s : State} (sym : Symbol) (more : List Input) (h : s.k + 1 = symbolCount s.nlen) :
    (symbolSent s sym more).mode = .idle ∧
      (frameRecord (symbolSent s sym more).trace).doneAt = some (s.time + 1000) := by
  simp [symbolSent, halfWritten, State.nextSymbol, h]

/-- A running frame has a symbol at its position. -/
theorem frameSymbol_of_midFrame {s : State} (h : MidFrame s) : ∃ sym, frameSymbol s.pbuf s.k = some sym :=
  Option.isSome_iff_exists.mp ((frameSymbol_isSome s.pbuf s.k).mpr (h.nlen_eq ▸ h.k_lt))

/-- A running frame stands at the start of a symbol whose first wait is over. -/
structure AtSymbolStart (s : State) : Prop where
  mid : MidFrame s
  phase : s.ph = .waitA
  waited : waitOver s.now s.ltt = true

/-- After a symbol that is not the last the frame stands at the start of the next one. -/
theorem symbolSent_next {s : State} {sym : Symbol} {more : List Input} (h : AtSymbolStart s)
    (hnext : s.k + 1 < symbolCount s.nlen) :
    AtSymbolStart (symbolSent s sym more) ∧ (symbolSent s sym more).k = s.k + 1 := by
  have hover : waitOver (symbolSent s sym more).now (symbolSent s sym more).ltt = true := by
    rw [State.now, symbolSent_time, symbolSent_ltt]
    exact waitOver_of_add_interval_le (by omega) (by omega)
  have hk : (symbolSent s sym more).k = s.k + 1 := by simp [symbolSent, halfWritten, State.nextSymbol, hnext.ne]
  refine ⟨⟨⟨?_, ?_, ?_⟩, ?_, hover⟩, hk⟩
  · simpa [symbolSent, halfWritten, State.nextSymbol, hnext.ne] using h.mid.busy
  · rw [symbolSent_nlen, symbolSent_pbuf, h.mid.nlen_eq]
  · rwa [hk, symbolSent_nlen]
  · simp [symbolSent, halfWritten, State.nextSymbol, hnext.ne]

/-- What a run that ends the frame begun before `s` leaves, if its writes from `s` on are the levels `lvs` half a bit
apart, and it is done at the last of them. -/
structure SentPromptly (s : State) (lvs : List Level) (more : List Input) (t : State) : Prop where
  idle : t.mode = .idle
  commands : t.commands = s.commands
  inputs : t.inputs = more
  pin : t.pin = s.pin
  done : (frameRecord t.trace).doneAt = some (s.time + 1000 * (lvs.length - 1))
  writes : (frameRecord t.trace).writes = (frameRecord s.trace).writes ++ nominalWrites s.time s.pin lvs

/-- The last symbol of a frame, without delay. -/
theorem sentPromptly_last {s : State} (sym : Symbol) (more : List Input) (h : s.k + 1 = symbolCount s.nlen) :
    SentPromptly s [firstLevel sym, secondLevel sym] more (symbolSent s sym more) where
  idle := (symbolSent_last sym more h).1
  commands := symbolSent_commands s sym more
  inputs := symbolSent_inputs s sym more
  pin := symbolSent_pin s sym more
  done := (symbolSent_last sym more h).2
  writes := symbolSent_writes s sym more

/-- A symbol without delay in front of what is sent promptly after it. -/
theorem sentPromptly_symbol {s t : State} {sym : Symbol} {lvs : List Level} {more rest : List Input}
    (h : SentPromptly (symbolSent s sym rest) lvs more t) (hpos : 0 < lvs.length) :
    SentPromptly s (firstLevel sym :: secondLevel sym :: lvs) more t where
  idle := h.idle
  commands := by rw [h.commands, symbolSent_commands]
  inputs := h.inputs
  pin := by rw [h.pin, symbolSent_pin]
  done := by
    rw [h.done, symbolSent_time, List.length_cons, List.length_cons, Option.some_inj]
    omega
  writes := by
    rw [h.writes, symbolSent_writes, symbolSent_time, symbolSent_pin, nominalWrites_symbol, List.append_assoc]

/-- From the start of a symbol with `n` more to come after it, the run without delay sends the rest of the frame. -/
theorem runSteps_restOfFrame {n : Nat} {more : List Input} : ∀ {s : State}, AtSymbolStart s →
    s.k + (n + 1) = symbolCount s.nlen → s.inputs = promptHalves (2 * (n + 1)) ++ more →
    ∃ t, runSteps (6 * (n + 1)) s = some t ∧ SentPromptly s ((frameLevels s.pbuf).drop (2 * s.k)) more t := by
  induction n with
  | zero =>
    intro s h hk hin
    obtain ⟨sym, hsym⟩ := frameSymbol_of_midFrame h.mid
    refine ⟨symbolSent s sym more, runSteps_symbolSent (n := 0) h.mid.busy hsym h.waited hin h.phase, ?_⟩
    rw [frameLevels_drop hsym, hk, h.mid.nlen_eq, frameLevels_drop_all]
    exact sentPromptly_last sym more hk
  | succ n ih =>
    intro s h hk hin
    obtain ⟨sym, hsym⟩ := frameSymbol_of_midFrame h.mid
    have hhalves : s.inputs = promptHalves 2 ++ (promptHalves (2 * (n + 1)) ++ more) := by
      rw [hin, ← List.append_assoc, ← promptHalves_add, Nat.mul_succ, Nat.add_comm]
    obtain ⟨hstart, hk'⟩ := symbolSent_next (sym := sym) (more := promptHalves (2 * (n + 1)) ++ more) h (by omega)
    obtain ⟨t, hrun, hsent⟩ := ih hstart (by rw [hk', symbolSent_nlen]; omega) (symbolSent_inputs ..)
    refine ⟨t, (runSteps_symbolSent h.mid.busy hsym h.waited hhalves h.phase).trans hrun, ?_⟩
    rw [frameLevels_drop hsym]
    rw [hk', symbolSent_pbuf] at hsent
    refine sentPromptly_symbol hsent ?_
    rw [List.length_drop, frameLevels_length, ← h.mid.nlen_eq]
    omega

/-- A frame stands at the start of its first symbol, 10 microseconds after its acceptance (R141). -/
theorem atSymbolStart_beginFrame (s : State) (payload : List Byte) (src : PayloadSource) :
    AtSymbolStart ((s.beginFrame payload src).elapse 10) where
  mid := ⟨rfl, rfl, by simp [symbolCount_eq]⟩
  phase := rfl
  waited := waitOver_of_add_startBias_le (c0 := s.time) (r := s.time + 10) (by omega) le_rfl

/-- Settles O46: the acceptance, 10 microseconds, then all `17 + 8*N` symbols from the first one on. -/
theorem promptFrameTakesItsNominalTime : Obligations.PromptFrameTakesItsNominalTime :=
  fun s c rest more hm hc hd hin => by
    have hnext : s.nextInput = calm 10 := by rw [State.nextInput, hin]; rfl
    have hstep := step_transmitFrame hm (by rw [hnext]; rfl) hc hd
    rw [hnext] at hstep
    have hcount : 17 + 8 * c.buffer.length = 16 + 8 * c.buffer.length + 1 := by omega
    have hinputs : (s.presented c).inputs = promptHalves (2 * (16 + 8 * c.buffer.length + 1)) ++ more := by
      rw [← hcount]
      simp [State.presented, hin, promptFrame]
    obtain ⟨t, hrun, hsent⟩ := runSteps_restOfFrame
      (atSymbolStart_beginFrame (s.presented c) c.buffer .hostBuffer) (by simp [symbolCount_eq, hcount]) hinputs
    refine ⟨t, ?_, hsent.idle, ?_, hsent.inputs, ?_, ?_, ?_⟩
    · rw [Nat.add_comm, runSteps_succ hstep, hcount]
      exact hrun
    · rw [hsent.commands]; simp [State.presented, hc]
    · rw [hsent.pin]; simp
    · rw [hsent.done]; simp [State.presented, frameLevels_length, symbolCount_eq]
    · rw [hsent.writes]; simp [State.presented, nominalWrites]

end Sys2Proof.Safety
